-- ==== Sys2Proof/Word.lean ====
section
/-! DEFINITION. The widths of the CHIP-8 core's data: bytes, 16-bit words, the fields of an
opcode, register and key numbers, and the one-bit framebuffer. -/

namespace Sys2Proof

/-- One memory cell, V register or timer: 8 bits (R21, R27, R28, R50). -/
abbrev Byte := BitVec 8

/-- I, PC, a stack slot or an opcode: 16 bits (R23, R24, R25, R70). -/
abbrev Word := BitVec 16

/-- The field NNN: a 12-bit address (R71). -/
abbrev Addr := BitVec 12

/-- The field N: a 4-bit row count (R71). -/
abbrev Nibble := BitVec 4

/-- A V register's number, 0..15 (R21, R73). -/
abbrev Reg := Fin 16

/-- A key code, 0x0..0xF (R31). -/
abbrev Key := Fin 16

/-- The register VF, which doubles as the flag (R22). -/
abbrev vf : Reg := 15

/-- The 64 x 32 one-bit framebuffer, `fb[y][x]` with row y and column x (R29). -/
abbrev Frame := Vector (Vector Bool 64) 32

end Sys2Proof
end

