-- ==== Sys2Proof/Config.lean ====
section
/-! DEFINITION. The fixed parameters of the core (R6), the type of its chosen parameters (R7) and the
free values the spec leaves open. The parameters' default values are in Machine/Defaults.lean. -/

namespace Sys2Proof

/-- `MEM_SIZE`: 4096 bytes (R6, R50). -/
abbrev memSize : Nat := 4096

/-- `MEM_TOP`: the highest valid address, 0xFFF (R6). -/
abbrev memTop : Nat := 0xFFF

/-- `PROGRAM_START`: programs load at 0x200 (R6). -/
abbrev programStart : Nat := 0x200

/-- `PROGRAM_MAX`: the longest program image, 3584 bytes (R6). -/
abbrev programMax : Nat := 3584

/-- `FONT_BASE`: the font table's first address (R6, R66). -/
abbrev fontBase : Nat := 0x000

/-- `FONT_SIZE`: 16 glyphs of 5 bytes (R6, R66). -/
abbrev fontSize : Nat := 80

/-- The bytes of one glyph (R66). -/
abbrev glyphBytes : Nat := 5

/-- `STACK_DEPTH`: 16 slots (R6, R25). -/
abbrev stackDepth : Nat := 16

/-- `ALU_VF_DEST` (R7, D3): which write is final when an ALU instruction's destination is VF. -/
inductive VfDest where
  /-- The later write of the instruction's table row is final (R129, the default). -/
  | tableOrder
  /-- The flag write is always final (R129). -/
  | flagLast
  deriving DecidableEq, Repr

/-- `TIMER_MODE` (R7, D12): when the timers tick. -/
inductive TimerMode where
  /-- At the end of every completed step (R167, the default). -/
  | perStep
  /-- Only on the host's `TimerTick` (R169). -/
  | externalTick
  deriving DecidableEq, Repr

/-- `FB_RESET` (R7, D14): the framebuffer and DRAW after `Initialize`. -/
inductive FbReset where
  /-- Every pixel 0 and DRAW 0 (the default). -/
  | zero
  /-- A free draw (log 5). -/
  | any
  deriving DecidableEq, Repr

/-- `RANDOM` (R7, D23): where the bytes of `CXNN` come from. -/
inductive RandomSource where
  /-- A free draw per execution (the default). -/
  | free
  /-- A deterministic source for a simulator: the draw numbered n is the byte at index n of the list, and
  a free draw once the list is used up (log 4). DESIGN CHOICE (log 21): an `Initialize` under
  `FB_RESET = any` takes a number too and so skips a byte, and no `Initialize` restarts the list. -/
  | supplied (bytes : List Byte)
  deriving DecidableEq, Repr

/-- The chosen parameters of R7. They are fixed for a machine; `State` carries them so that every
statement can speak of every choice (log 2). -/
structure Params where
  /-- `HAS_9XY0`: is `9XY0` decoded (R76, D4)? -/
  has9xy0 : Bool
  /-- `DECODE_STRICT`: are all spelled nibbles of groups 0, 5 and 9 matched (R75, D5)? -/
  decodeStrict : Bool
  /-- `ALU_VF_DEST` (R129). -/
  vfDest : VfDest
  /-- `TIMER_MODE` (R167, R169). -/
  timerMode : TimerMode
  /-- `FONT_TABLE`: the 80 bytes `Initialize` copies to address 0 (R66). -/
  font : Vector Byte 80
  /-- `RANDOM` (R141). -/
  random : RandomSource
  /-- `FB_RESET` (R37). -/
  fbReset : FbReset
  deriving DecidableEq, Repr

/-- FREE VALUE (log 4): the byte of the n-th free draw of `CXNN` (R141: under no law, D23). -/
opaque Config.randomByte : Nat → Byte

/-- FREE VALUE (log 5): the framebuffer after an `Initialize` under `FB_RESET = any` (R7, D14). -/
opaque Config.resetFrame : Nat → Frame

/-- FREE VALUE (log 5): DRAW after an `Initialize` under `FB_RESET = any` (R7: "DRAW unknown"). -/
opaque Config.resetDraw : Nat → Bool

end Sys2Proof
end

