-- ==== Sys2Proof/Machine/Defaults.lean ====
section
/-! DEFINITION. The default values of the chosen parameters (R7), the default font table among them
(R66), and what an unlisted memory address reads as. -/

namespace Sys2Proof.Machine

/-- The default `FONT_TABLE`: the conventional CHIP-8 hex font of R66 (glyph g at bytes 5g..5g+4).
PRESUMED (log 3): the spec marks these bytes "from general knowledge, not in source". -/
def defaultFont : Vector Byte 80 := #v[
  0xF0, 0x90, 0x90, 0x90, 0xF0,   0x20, 0x60, 0x20, 0x20, 0x70,
  0xF0, 0x10, 0xF0, 0x80, 0xF0,   0xF0, 0x10, 0xF0, 0x10, 0xF0,
  0x90, 0x90, 0xF0, 0x10, 0x10,   0xF0, 0x80, 0xF0, 0x10, 0xF0,
  0xF0, 0x80, 0xF0, 0x90, 0xF0,   0xF0, 0x10, 0x20, 0x40, 0x40,
  0xF0, 0x90, 0xF0, 0x90, 0xF0,   0xF0, 0x90, 0xF0, 0x10, 0xF0,
  0xF0, 0x90, 0xF0, 0x90, 0x90,   0xE0, 0x90, 0xE0, 0x90, 0xE0,
  0xF0, 0x80, 0x80, 0x80, 0xF0,   0xE0, 0x90, 0x90, 0x90, 0xE0,
  0xF0, 0x80, 0xF0, 0x80, 0xF0,   0xF0, 0x80, 0xF0, 0x80, 0x80]

/-- The default of every chosen parameter (R7). -/
def defaultParams : Params where
  has9xy0 := true
  decodeStrict := true
  vfDest := .tableOrder
  timerMode := .perStep
  font := defaultFont
  random := .free
  fbReset := .zero

/-- What a memory address reads as while memory lists nothing for it: the reset contents of R37 under
the default parameters, the font table below 0x050 and 0 above (log 3, log 14). -/
def unlistedByte (a : Nat) : Byte := defaultFont[a]?.getD 0

end Sys2Proof.Machine
end

