-- ==== Sys2Proof/Syntax.lean ====
section
/-! DEFINITION. The instructions: one constructor per row of spec/opcode_table.json (R74), with the
fields its pattern spells. -/

namespace Sys2Proof

/-- The 34 instructions of the opcode map (R74). A word that matches no pattern is UNKNOWN (R77);
it is no row of the table and no constructor: the step treats it (R202). -/
inductive Instr where
  /-- `00E0` CLS: clear the framebuffer (R102). -/
  | cls
  /-- `00EE` RET: return from subroutine (R112). -/
  | ret
  /-- `1NNN` JP nnn: jump (R113). -/
  | jp (nnn : Addr)
  /-- `2NNN` CALL nnn: call subroutine (R114). -/
  | call (nnn : Addr)
  /-- `3XNN` SE Vx, nn: skip if equal to immediate (R121). -/
  | seImm (x : Reg) (nn : Byte)
  /-- `4XNN` SNE Vx, nn: skip if not equal to immediate (R122). -/
  | sneImm (x : Reg) (nn : Byte)
  /-- `5XY0` SE Vx, Vy: skip if registers equal (R123). -/
  | seReg (x y : Reg)
  /-- `6XNN` LD Vx, nn: load immediate (R130). -/
  | ldImm (x : Reg) (nn : Byte)
  /-- `7XNN` ADD Vx, nn: add immediate (R131). -/
  | addImm (x : Reg) (nn : Byte)
  /-- `8XY0` LD Vx, Vy: register move (R132). -/
  | ldReg (x y : Reg)
  /-- `8XY1` OR Vx, Vy (R133). -/
  | orReg (x y : Reg)
  /-- `8XY2` AND Vx, Vy (R134). -/
  | andReg (x y : Reg)
  /-- `8XY3` XOR Vx, Vy (R135). -/
  | xorReg (x y : Reg)
  /-- `8XY4` ADD Vx, Vy: add with carry out (R136). -/
  | addReg (x y : Reg)
  /-- `8XY5` SUB Vx, Vy: VX − VY (R137). -/
  | sub (x y : Reg)
  /-- `8XY6` SHR Vx {, Vy}: shift right by one; Y is decoded and ignored (R138). -/
  | shr (x y : Reg)
  /-- `8XY7` SUBN Vx, Vy: VY − VX (R139). -/
  | subn (x y : Reg)
  /-- `8XYE` SHL Vx {, Vy}: shift left by one; Y is decoded and ignored (R140). -/
  | shl (x y : Reg)
  /-- `9XY0` SNE Vx, Vy: skip if registers differ (R124), present when HAS_9XY0 (R76). -/
  | sneReg (x y : Reg)
  /-- `ANNN` LD I, nnn: load index (R150). -/
  | ldI (nnn : Addr)
  /-- `BNNN` JP V0, nnn: jump with offset (R115). -/
  | jpV0 (nnn : Addr)
  /-- `CXNN` RND Vx, nn: random byte masked (R141). -/
  | rnd (x : Reg) (nn : Byte)
  /-- `DXYN` DRW Vx, Vy, n: draw sprite (R103). -/
  | drw (x y : Reg) (n : Nibble)
  /-- `EX9E` SKP Vx: skip if key pressed (R161). -/
  | skp (x : Reg)
  /-- `EXA1` SKNP Vx: skip if key not pressed (R162). -/
  | sknp (x : Reg)
  /-- `FX07` LD Vx, DT: read delay timer (R163). -/
  | ldVxDT (x : Reg)
  /-- `FX0A` LD Vx, K: wait for a key (R164). -/
  | ldVxK (x : Reg)
  /-- `FX15` LD DT, Vx: set delay timer (R165). -/
  | ldDTVx (x : Reg)
  /-- `FX18` LD ST, Vx: set sound timer (R166). -/
  | ldSTVx (x : Reg)
  /-- `FX1E` ADD I, Vx: add to index (R151). -/
  | addIVx (x : Reg)
  /-- `FX29` LD F, Vx: point I at a font glyph (R152). -/
  | ldFVx (x : Reg)
  /-- `FX33` LD B, Vx: store binary-coded decimal (R153). -/
  | ldBVx (x : Reg)
  /-- `FX55` LD [I], Vx: store registers V0..VX (R154). -/
  | ldMIVx (x : Reg)
  /-- `FX65` LD Vx, [I]: load registers V0..VX (R155). -/
  | ldVxMI (x : Reg)
  deriving DecidableEq, Repr

end Sys2Proof
end

