-- ==== Sys2Proof/Decode.lean ====
section
/-! DEFINITION. The decoder, total on any bytes and rejecting by name (R70 to R80), and the encoder
written from the same encodings. -/

namespace Sys2Proof

/-- The big-endian pair of R9 and R54: `concat(h, l)` is h * 256 + l. -/
def concatBytes (h l : Byte) : Word := BitVec.ofNat 16 (h.toNat * 256 + l.toNat)

/-- The byte of a word at the lower address, `op[15:8]` (R54). -/
def highByte (w : Word) : Byte := BitVec.ofNat 8 (w.toNat / 256)

/-- The byte of a word at the higher address, `op[7:0]` (R54). -/
def lowByte (w : Word) : Byte := BitVec.ofNat 8 w.toNat

/-- `G`, the group `op[15:12]` (R71). -/
def fieldG (w : Word) : Nat := w.toNat / 4096

/-- `X`, the register selector `op[11:8]` (R71, R73). -/
def fieldX (w : Word) : Reg := ⟨w.toNat / 256 % 16, Nat.mod_lt _ (by decide)⟩

/-- `Y`, the register selector `op[7:4]` (R71, R73). -/
def fieldY (w : Word) : Reg := ⟨w.toNat / 16 % 16, Nat.mod_lt _ (by decide)⟩

/-- `N`, the 4-bit field `op[3:0]` (R71). -/
def fieldN (w : Word) : Nibble := BitVec.ofNat 4 w.toNat

/-- `NN`, the 8-bit field `op[7:0]` (R71). -/
def fieldNN (w : Word) : Byte := BitVec.ofNat 8 w.toNat

/-- `NNN`, the 12-bit field `op[11:0]` (R71). -/
def fieldNNN (w : Word) : Addr := BitVec.ofNat 12 w.toNat

/-- Group 0 (R74): the whole word under DECODE_STRICT, the low byte alone otherwise (R75). -/
def decodeGroup0 (p : Params) (w : Word) : Option Instr :=
  if p.decodeStrict && fieldX w != 0 then none
  else match (fieldNN w).toNat with
    | 0xE0 => some .cls
    | 0xEE => some .ret
    | _ => none

/-- Does the low nibble of a group 5 or 9 word fit: 0 under DECODE_STRICT, any otherwise (R75)? -/
def lowNibbleFits (p : Params) (w : Word) : Bool := !p.decodeStrict || fieldN w == 0

/-- Group 8 (R74): the operation is the low nibble. -/
def decodeGroup8 (w : Word) : Option Instr :=
  match (fieldN w).toNat with
  | 0x0 => some (.ldReg (fieldX w) (fieldY w))
  | 0x1 => some (.orReg (fieldX w) (fieldY w))
  | 0x2 => some (.andReg (fieldX w) (fieldY w))
  | 0x3 => some (.xorReg (fieldX w) (fieldY w))
  | 0x4 => some (.addReg (fieldX w) (fieldY w))
  | 0x5 => some (.sub (fieldX w) (fieldY w))
  | 0x6 => some (.shr (fieldX w) (fieldY w))
  | 0x7 => some (.subn (fieldX w) (fieldY w))
  | 0xE => some (.shl (fieldX w) (fieldY w))
  | _ => none

/-- Group E (R74): the operation is the low byte. -/
def decodeGroupE (w : Word) : Option Instr :=
  match (fieldNN w).toNat with
  | 0x9E => some (.skp (fieldX w))
  | 0xA1 => some (.sknp (fieldX w))
  | _ => none

/-- Group F (R74): the operation is the low byte. -/
def decodeGroupF (w : Word) : Option Instr :=
  match (fieldNN w).toNat with
  | 0x07 => some (.ldVxDT (fieldX w))
  | 0x0A => some (.ldVxK (fieldX w))
  | 0x15 => some (.ldDTVx (fieldX w))
  | 0x18 => some (.ldSTVx (fieldX w))
  | 0x1E => some (.addIVx (fieldX w))
  | 0x29 => some (.ldFVx (fieldX w))
  | 0x33 => some (.ldBVx (fieldX w))
  | 0x55 => some (.ldMIVx (fieldX w))
  | 0x65 => some (.ldVxMI (fieldX w))
  | _ => none

/-- The opcode map (R74): the instruction of a word, or none where the word is UNKNOWN (R77). -/
def decodeWord (p : Params) (w : Word) : Option Instr :=
  match fieldG w with
  | 0x0 => decodeGroup0 p w
  | 0x1 => some (.jp (fieldNNN w))
  | 0x2 => some (.call (fieldNNN w))
  | 0x3 => some (.seImm (fieldX w) (fieldNN w))
  | 0x4 => some (.sneImm (fieldX w) (fieldNN w))
  | 0x5 => if lowNibbleFits p w then some (.seReg (fieldX w) (fieldY w)) else none
  | 0x6 => some (.ldImm (fieldX w) (fieldNN w))
  | 0x7 => some (.addImm (fieldX w) (fieldNN w))
  | 0x8 => decodeGroup8 w
  | 0x9 => if p.has9xy0 && lowNibbleFits p w then some (.sneReg (fieldX w) (fieldY w)) else none
  | 0xA => some (.ldI (fieldNNN w))
  | 0xB => some (.jpV0 (fieldNNN w))
  | 0xC => some (.rnd (fieldX w) (fieldNN w))
  | 0xD => some (.drw (fieldX w) (fieldY w) (fieldN w))
  | 0xE => decodeGroupE w
  | 0xF => decodeGroupF w
  | _ => none

/-- Why bytes are no instruction. -/
inductive DecodeError where
  /-- Fewer than two bytes: an instruction is always two bytes (R70). -/
  | truncated
  /-- The word matches no pattern: UNKNOWN (R77). The step reports it and goes on (R202). -/
  | unknownOpcode (op : Word)
  deriving DecidableEq, Repr

/-- The decoder on bytes: it takes exactly two, big-endian (R54, R70), and answers the instruction
with the bytes left, or the name of the rejection. -/
def decode (p : Params) : List Byte → Except DecodeError (Instr × List Byte)
  | h :: l :: rest =>
    match decodeWord p (concatBytes h l) with
    | some i => .ok (i, rest)
    | none => .error (.unknownOpcode (concatBytes h l))
  | _ => .error .truncated

/-- A word with the given group nibble and 12-bit rest. -/
def wordNNN (g : Nat) (nnn : Addr) : Word := BitVec.ofNat 16 (g * 4096 + nnn.toNat)

/-- A word `GXNN`. -/
def wordXNN (g : Nat) (x : Reg) (nn : Byte) : Word :=
  BitVec.ofNat 16 (g * 4096 + x.val * 256 + nn.toNat)

/-- A word `GXYN`. -/
def wordXYN (g : Nat) (x y : Reg) (n : Nibble) : Word :=
  BitVec.ofNat 16 (g * 4096 + x.val * 256 + y.val * 16 + n.toNat)

/-- The encoder: the word of an instruction, from its row of spec/opcode_table.json. -/
def encode : Instr → Word
  | .cls => 0x00E0
  | .ret => 0x00EE
  | .jp nnn => wordNNN 0x1 nnn
  | .call nnn => wordNNN 0x2 nnn
  | .seImm x nn => wordXNN 0x3 x nn
  | .sneImm x nn => wordXNN 0x4 x nn
  | .seReg x y => wordXYN 0x5 x y 0x0
  | .ldImm x nn => wordXNN 0x6 x nn
  | .addImm x nn => wordXNN 0x7 x nn
  | .ldReg x y => wordXYN 0x8 x y 0x0
  | .orReg x y => wordXYN 0x8 x y 0x1
  | .andReg x y => wordXYN 0x8 x y 0x2
  | .xorReg x y => wordXYN 0x8 x y 0x3
  | .addReg x y => wordXYN 0x8 x y 0x4
  | .sub x y => wordXYN 0x8 x y 0x5
  | .shr x y => wordXYN 0x8 x y 0x6
  | .subn x y => wordXYN 0x8 x y 0x7
  | .shl x y => wordXYN 0x8 x y 0xE
  | .sneReg x y => wordXYN 0x9 x y 0x0
  | .ldI nnn => wordNNN 0xA nnn
  | .jpV0 nnn => wordNNN 0xB nnn
  | .rnd x nn => wordXNN 0xC x nn
  | .drw x y n => wordXYN 0xD x y n
  | .skp x => wordXNN 0xE x 0x9E
  | .sknp x => wordXNN 0xE x 0xA1
  | .ldVxDT x => wordXNN 0xF x 0x07
  | .ldVxK x => wordXNN 0xF x 0x0A
  | .ldDTVx x => wordXNN 0xF x 0x15
  | .ldSTVx x => wordXNN 0xF x 0x18
  | .addIVx x => wordXNN 0xF x 0x1E
  | .ldFVx x => wordXNN 0xF x 0x29
  | .ldBVx x => wordXNN 0xF x 0x33
  | .ldMIVx x => wordXNN 0xF x 0x55
  | .ldVxMI x => wordXNN 0xF x 0x65

/-- The two bytes of an instruction in memory order, big-endian (R54). -/
def encodeBytes (i : Instr) : List Byte := [highByte (encode i), lowByte (encode i)]

/-- The opcode word whose bits, numbered as spec/opcode_table.json numbers them, are `w`: the bits
above `nbits` are 0. -/
def tableWord (nbits w : Nat) : Word := BitVec.ofNat 16 (w % 2 ^ nbits)

/-- What the decoder reads, with the default parameters, from an instruction whose bits are `w`: the
word is laid out big-endian and given to `decode`. -/
def decodeTableWord (nbits w : Nat) : Option Instr :=
  match decode Machine.defaultParams [highByte (tableWord nbits w), lowByte (tableWord nbits w)] with
  | .ok (i, _) => some i
  | .error _ => none

end Sys2Proof
end

