-- ==== Sys2Proof/Machine/State.lean ====
section
/-! DEFINITION. The state of the core as plain data (R20), its cause codes and reports (R201), the
reasons a step can stop, and the state after reset (R37). -/

namespace Sys2Proof.Machine

/-- Memory: the listed (address, byte) cells. An address that is not listed reads as `unlistedByte`
(log 14); the canonical form is `Memory.wf`. -/
abbrev Memory := List Host.Cell

/-- Why a program image was not loaded (R201, R252). -/
inductive LoadReason where
  /-- The byte source could not be read. -/
  | unreadable
  /-- The image is longer than 3584 bytes; its length. -/
  | tooLong (len : Nat)
  deriving DecidableEq, Repr

/-- `CAUSE`: a fatal condition with the information R201 records for it, or NONE. The opcode is the
opcode register's content at the raise (R32, R33, log 7). -/
inductive Cause where
  /-- Code 0, `NONE`: no fatal condition (the reset value). -/
  | none
  /-- Code 2: the fetch would pass 0xFFF (R203). -/
  | fetchOutOfRange (pc0 : Word)
  /-- Code 3: a data access of `n` bytes from `base` would pass 0xFFF (R204). -/
  | memoryOutOfRange (pc0 : Word) (op : Option Word) (base : Word) (n : Nat)
  /-- Code 4: a call with 16 return addresses on the stack (R205). -/
  | stackOverflow (pc0 : Word) (op : Option Word) (sp : Fin 17)
  /-- Code 5: a return with an empty stack (R206). -/
  | stackUnderflow (pc0 : Word) (op : Option Word) (sp : Fin 17)
  /-- Code 6: `LoadProgram` failed (R207). -/
  | loadError (reason : LoadReason)
  deriving DecidableEq, Repr

/-- A report carried to the host (R200, R202, R208). -/
inductive Report where
  /-- Cause code 1: an UNKNOWN word was executed (R202). Never stored in CAUSE. -/
  | unknownOpcode (pc0 op : Word)
  /-- A fatal condition was entered (R208). -/
  | fatal (c : Cause)
  deriving DecidableEq, Repr

/-- The state of the core: the tuple of R20, the outputs TONE and report (R34, R39), the opcode
register (R32), the parameters (R7) and two pieces of the model's own bookkeeping. -/
structure State where
  /-- The chosen parameters (R7); fixed for the machine (log 2). -/
  params : Params
  /-- `MEM` (R50). -/
  mem : Memory
  /-- `V[0..15]` (R21). -/
  v : Vector Byte 16
  /-- `I` (R23). -/
  i : Word
  /-- `PC` (R24). -/
  pc : Word
  /-- `STACK[0..15]` (R25). -/
  stack : Vector Word 16
  /-- `SP`, the number of return addresses on the stack, 0..16 (R26). -/
  sp : Fin 17
  /-- `DT` (R27). -/
  dt : Byte
  /-- `ST` (R28). -/
  st : Byte
  /-- `FB[y][x]` (R29). -/
  fb : Frame
  /-- `DRAW` (R30). -/
  draw : Bool
  /-- `KEY[0..15]`, true when pressed (R31). -/
  key : Vector Bool 16
  /-- `HALTED` (R33). -/
  halted : Bool
  /-- `CAUSE` (R33). -/
  cause : Cause
  /-- `TONE`, the tone output of the latest tick (R34, log 6). -/
  tone : Bool
  /-- The opcode register: the fetched word during a step, nothing between steps (R32, log 7). -/
  opcode : Option Word
  /-- The report the latest `Step` or `LoadProgram` gave the host, if any (R39, R202, R208, log 8). -/
  report : Option Report
  /-- The model's own: has a `Step` been performed since `Initialize`, the core
  halted or not (R40, R253, log 9)? -/
  stepped : Bool
  /-- The model's own: how many draws have been made, by `CXNN` (R141, log 4) and by `Initialize` under
  `FB_RESET = any` (log 5, log 21). -/
  draws : Nat
  deriving DecidableEq, Repr

/-- Reasons the machine stops with no next state. There is none: every fatal condition of the spec
has a described state, the halted state of R208 and R209, and is a next state (log 1). Safe: nothing
the hardware does is left out by it. -/
inductive Fault where
  deriving DecidableEq, Repr

/-- Reasons for a refusal. -/
inductive Refusal where
  /-- An arm of `exec` without a meaning; raised by no arm of this model. Safe. -/
  | notModelled (mnemonic : String)
  /-- The host operation `LoadProgram` after the first `Step` (R40, R253: "refused and changes
  nothing"); raised by `perform` only, never by a step. Safe. -/
  | lateLoad
  deriving DecidableEq, Repr

/-- What a step, an instruction or a host operation answers. -/
abbrev Result := Host.Outcome State Fault Refusal

/-- The state after `Initialize` with the default parameters (R37, R250). -/
def State.reset : State where
  params := defaultParams
  mem := []
  v := Vector.replicate 16 0
  i := 0
  pc := 0x200
  stack := Vector.replicate 16 0
  sp := 0
  dt := 0
  st := 0
  fb := Vector.replicate 32 (Vector.replicate 64 false)
  draw := false
  key := Vector.replicate 16 false
  halted := false
  cause := .none
  tone := false
  opcode := none
  report := none
  stepped := false
  draws := 0

end Sys2Proof.Machine
end

