-- ==== Sys2Proof/Machine/Ops.lean ====
section
/-! DEFINITION. The named operations over memory, registers, program counter, stack, framebuffer,
keys and timers, and entering a fatal condition (R208), the one shared "trap entry". There is no
return from a fatal condition (R210). -/

namespace Sys2Proof.Machine

/-- The canonical form of memory: addresses strictly rising, all inside the 4096 bytes, and no entry
equal to what the unlisted address reads as. -/
abbrev Memory.wf (m : Memory) : Prop :=
  (m.map Prod.fst).Pairwise (· < ·) ∧ ∀ c ∈ m, c.1 < memSize ∧ c.2 ≠ unlistedByte c.1

/-- The byte at an address (R50, R59). -/
def Memory.read : Memory → Nat → Byte
  | [], a => unlistedByte a
  | c :: rest, a => if c.1 = a then c.2 else Memory.read rest a

/-- The cells of every address but `a`. -/
def Memory.erase (m : Memory) (a : Nat) : Memory := m.filter fun c => c.1 != a

/-- A cell put at its place in rising address order. -/
def Memory.insert (m : Memory) (a : Nat) (b : Byte) : Memory :=
  match m with
  | [] => [(a, b)]
  | c :: rest => if a < c.1 then (a, b) :: c :: rest else c :: Memory.insert rest a b

/-- Write one byte. An address above 0xFFF has no cell; every caller has checked the range before
(R53, R57), and nothing is written there (log 13). -/
def Memory.write (m : Memory) (a : Nat) (b : Byte) : Memory :=
  if a < memSize then
    if b = unlistedByte a then Memory.erase m a else Memory.insert (Memory.erase m a) a b
  else m

/-- Write bytes at ascending addresses from `a` (R55). -/
def Memory.writeAll (m : Memory) (a : Nat) : List Byte → Memory
  | [] => m
  | b :: rest => Memory.writeAll (Memory.write m a b) (a + 1) rest

/-- Read `n` bytes at ascending addresses from `a` (R55). -/
def Memory.readAll (m : Memory) (a : Nat) : Nat → List Byte
  | 0 => []
  | n + 1 => Memory.read m a :: Memory.readAll m (a + 1) n

/-- Is an access of `n` bytes from `base` inside the address space? Computed on unbounded numbers,
never wrapped; no byte is always in range (R11 `CheckRange`, R53). -/
def inRange (base n : Nat) : Bool := n == 0 || decide (base + n - 1 ≤ memTop)

/-- `V[x]` (R21). -/
def State.readV (s : State) (x : Reg) : Byte := s.v[x]

/-- `V[x] <- b` (R21). -/
def State.writeV (s : State) (x : Reg) (b : Byte) : State := { s with v := s.v.set x b }

/-- The default of R81: the step commits `pc0 + 2`. -/
def State.advance (s : State) : State := { s with pc := s.pc + 2 }

/-- `Skip(cond)`: commit `pc0 + 4` when the condition holds, else `pc0 + 2` (R120). -/
def State.skipIf (s : State) (cond : Bool) : State := { s with pc := if cond then s.pc + 4 else s.pc + 2 }

/-- `pc <- target` (R81, R82). -/
def State.goto (s : State) (target : Word) : State := { s with pc := target }

/-- `raise C(info)` (R208): the state entered by a fatal condition. `s` is the state before any write
of the instruction, so every write of the step is discarded; PC stays pc0. -/
def State.raise (s : State) (c : Cause) : State :=
  { s with halted := true, cause := c, tone := false, report := some (.fatal c) }

/-- What an instruction that may raise answers: its next state, or the fatal condition entered from
the state before it (R208). -/
def State.orRaise (s : State) : Except Cause State → Result
  | .ok t => .next t
  | .error c => .next (s.raise c)

/-- `CheckRange(I, n)` before the first write of an instruction (R11, R57), then the instruction's
effect `t`; otherwise MemoryOutOfRange(I, n) (R204). -/
def State.checkRange (s : State) (n : Nat) (t : State) : Except Cause State :=
  if inRange s.i.toNat n then .ok t else .error (.memoryOutOfRange s.pc s.opcode s.i n)

/-- `Push(v)` (R110). -/
def State.push (s : State) (w : Word) : Except Cause State :=
  if h : s.sp.val < stackDepth then
    .ok { s with stack := s.stack.set s.sp.val w, sp := ⟨s.sp.val + 1, Nat.succ_lt_succ h⟩ }
  else .error (.stackOverflow s.pc s.opcode s.sp)

/-- `Pop()` (R111): the popped word and the state after; the slot keeps its value. -/
def State.pop (s : State) : Except Cause (Word × State) :=
  if h : 0 < s.sp.val then
    have hlt : s.sp.val - 1 < 16 := by have := s.sp.isLt; omega
    .ok (s.stack[s.sp.val - 1], { s with sp := ⟨s.sp.val - 1, Nat.lt_succ_of_lt hlt⟩ })
  else .error (.stackUnderflow s.pc s.opcode s.sp)

/-- `TimerTickBody()` (R167): both timers toward 0, TONE from ST before the decrement (R168). -/
def State.tick (s : State) : State :=
  { s with
    dt := if s.dt = 0 then 0 else s.dt - 1
    st := if s.st = 0 then 0 else s.st - 1
    tone := decide (s.st ≠ 0) }

/-- `Pressed(k)` (R160). -/
def State.pressed (s : State) (k : Key) : Bool := s.key[k]

/-- The least pressed key, if any (R164). -/
def State.leastPressed (s : State) : Option Key := (List.finRange 16).find? fun k => s.pressed k

/-- `draw_random_byte()` (R11, R141): the byte of the draw numbered `draws` (log 4, log 21). -/
def State.randomByte (s : State) : Byte :=
  match s.params.random with
  | .free => Config.randomByte s.draws
  | .supplied bytes => bytes[s.draws]?.getD (Config.randomByte s.draws)

/-- The framebuffer with every pixel 0 (R29, R102). -/
def Frame.blank : Frame := Vector.replicate 32 (Vector.replicate 64 false)

/-- The pixel in column `x` and row `y` (R29). -/
def Frame.pixel (f : Frame) (x : Fin 64) (y : Fin 32) : Bool := f[y][x]

/-- XOR a pixel with 1 (R103). -/
def Frame.toggle (f : Frame) (x : Fin 64) (y : Fin 32) : Frame :=
  f.set y (f[y].set x (!f[y][x]))

end Sys2Proof.Machine
end

