-- ==== Sys2Proof/Machine/Cycle.lean ====
section
/-! DEFINITION. The phases of one `Step` around an instruction's execution (R81): the halted check,
the fetch, UNKNOWN words and the end of the step with the timer tick. -/

namespace Sys2Proof.Machine

/-- The opcode fetched at PC, big-endian, or none where the fetch would pass 0xFFF (R54, R60). -/
def State.fetch (s : State) : Option Word :=
  if s.pc.toNat + 1 > memTop then none
  else some (concatBytes (Memory.read s.mem s.pc.toNat) (Memory.read s.mem (s.pc.toNat + 1)))

/-- A step begins: it has given no report yet. -/
def State.begin (s : State) : State := { s with report := none }

/-- The fetched word stands in the opcode register for the rest of the step (R32). -/
def State.hold (s : State) (w : Word) : State := { s with opcode := some w }

/-- `execute UNKNOWN` (R202): the report, PC + 2, no other change. -/
def execUnknown (w : Word) (s : State) : Result :=
  .next { s with report := some (.unknownOpcode s.pc w) }.advance

/-- A step ends: a completed one ticks the timers under `per_step` (R167), one that raised a fatal
condition does not (R208). The opcode register holds nothing after it (R32). -/
def State.finish (s : State) : State :=
  let t := if !s.halted && s.params.timerMode == .perStep then s.tick else s
  { t with opcode := none, stepped := true }

/-- The end of a step on what the instruction answered. -/
def finishResult : Result → Result
  | .next s => .next s.finish
  | .fault f => .fault f
  | .refused r => .refused r

/-- A `Step` while halted does nothing to the core; it outputs TONE 0 and no report (R34, R209), and the
host protocol counts it as a `Step` performed (R40, R253, log 9). -/
def State.idle (s : State) : State := { s with tone := false, report := none, stepped := true }

/-- What phase 3 runs on the word fetched: the decoded instruction, or UNKNOWN (R77, R81). -/
def runWord (run : Instr → State → Result) (w : Word) (s : State) : Result :=
  match decodeWord s.params w with
  | some i => run i s
  | none => execUnknown w s

/-- `Step()` (R81), with `run` for the execution of a decoded instruction. The order of the checks is
that of R211. -/
def cycle (run : Instr → State → Result) (s : State) : Result :=
  if s.halted then .next s.idle
  else match s.fetch with
    | none => finishResult (.next (s.begin.raise (.fetchOutOfRange s.pc)))
    | some w => finishResult (runWord run w (s.begin.hold w))

/-- Where the next instruction is fetched: PC, or the program start where no fetch is possible at PC. -/
def State.fetchPc (s : State) : Word := if s.pc.toNat + 1 > memTop then 0x200 else s.pc

/-- The state in which the opcode `w` stands where the next step fetches and that step runs it: a
halted core is set running, and PC is moved only when it cannot be fetched from (log 17). -/
def State.placeWord (s : State) (w : Word) : State :=
  { s with
    mem := Memory.writeAll s.mem s.fetchPc.toNat [highByte w, lowByte w]
    pc := s.fetchPc
    halted := false
    cause := .none }

end Sys2Proof.Machine
end

