-- ==== Sys2Proof/Machine/Flags.lean ====
section
/-! DEFINITION. The flag computations (R22, R128) and the ordered write of a result and a flag
(R129). Booleans convert to numbers as true = 1, false = 0 (R9). -/

namespace Sys2Proof.Machine

/-- A flag as the byte written to VF (R9). -/
def flagByte (b : Bool) : Byte := if b then 1 else 0

/-- Carry out of an 8-bit addition: the 9-bit sum exceeds 255 (R128, R136). -/
def carryOut (a b : Byte) : Bool := decide (a.toNat + b.toNat > 255)

/-- No borrow in `a - b`: `a >= b`, unsigned (R128, R137). -/
def noBorrow (a b : Byte) : Bool := decide (a.toNat ≥ b.toNat)

/-- The bit a right shift moves out, bit 0 (R138). -/
def shiftedOutRight (a : Byte) : Bool := a.getLsbD 0

/-- The bit a left shift moves out, bit 7 (R140). -/
def shiftedOutLeft (a : Byte) : Bool := a.getLsbD 7

/-- The order in which an instruction's table row lists its two writes (R129). -/
inductive WriteOrder where
  | resultThenFlag
  | flagThenResult
  deriving DecidableEq, Repr

/-- `WriteBoth(X, result, flag, row)` (R129): the later write is final when X = F, and the flag is
the later one always under `ALU_VF_DEST = flag_last`. -/
def State.writeBoth (s : State) (x : Reg) (result : Byte) (flag : Bool) (row : WriteOrder) : State :=
  match row, s.params.vfDest with
  | .resultThenFlag, _ => (s.writeV x result).writeV vf (flagByte flag)
  | .flagThenResult, .flagLast => (s.writeV x result).writeV vf (flagByte flag)
  | .flagThenResult, .tableOrder => (s.writeV vf (flagByte flag)).writeV x result

end Sys2Proof.Machine
end

