-- ==== Sys2Proof/Machine/Operands.lean ====
section
/-! DEFINITION. The operand forms: zero-extended immediates (R72), register values, key numbers taken
from a register's low nibble (R160), the glyph address (R67), and the block of registers V0..VX
(R73). The memory operand, base I plus an unwrapped offset, is `s.i.toNat + k` (R53). -/

namespace Sys2Proof.Machine

/-- NNN as a 16-bit address, zero-extended (R72). -/
def addrOf (nnn : Addr) : Word := nnn.setWidth 16

/-- A byte as a 16-bit number, zero-extended (R9 `zext`). -/
def wordOf (b : Byte) : Word := b.setWidth 16

/-- The low nibble of a byte, `b AND 0xF`, as a key number (R160). -/
def lowNibble (b : Byte) : Key := ⟨b.toNat % 16, Nat.mod_lt _ (by decide)⟩

/-- The address of a hex digit's glyph, 5 bytes each from FONT_BASE (R67, R152). -/
def glyphAddr (d : Fin 16) : Word := BitVec.ofNat 16 (fontBase + d.val * glyphBytes)

/-- The three decimal digits of a byte: hundreds, tens, ones (R153). -/
def bcdDigits (b : Byte) : List Byte :=
  [BitVec.ofNat 8 (b.toNat / 100), BitVec.ofNat 8 (b.toNat / 10 % 10), BitVec.ofNat 8 (b.toNat % 10)]

/-- The values of V0..VX in order (R154). -/
def State.regBlock (s : State) (x : Reg) : List Byte := s.v.toList.take (x.val + 1)

/-- V0..VX loaded from memory at I, registers above VX unchanged (R155). -/
def State.loadBlock (s : State) (x : Reg) : Vector Byte 16 :=
  Vector.ofFn fun k => if k ≤ x then Memory.read s.mem (s.i.toNat + k.val) else s.v[k]

/-- Column `(x0 + c) mod 64` with `x0 = VX mod 64` (R100). -/
def spriteColumn (vx : Byte) (c : Nat) : Fin 64 :=
  ⟨(vx.toNat % 64 + c) % 64, Nat.mod_lt _ (by decide)⟩

/-- Row `(y0 + r) mod 32` with `y0 = VY mod 32` (R100). -/
def spriteRow (vy : Byte) (r : Nat) : Fin 32 :=
  ⟨(vy.toNat % 32 + r) % 32, Nat.mod_lt _ (by decide)⟩

/-- Bit c of a sprite row counted from the left, bit `7 - c` of its byte (R100). -/
def spriteBit (b : Byte) (c : Nat) : Bool := b.getLsbD (7 - c)

end Sys2Proof.Machine
end

