-- ==== Sys2Proof/Machine/Alu.lean ====
section
/-! DEFINITION. Register loads, the ALU and random (spec 43). Every operand is read from the state
before the instruction (R129); results are reduced to 8 bits (R128). -/

namespace Sys2Proof.Machine

/-- `6XNN` (R130). -/
def execLdImm (x : Reg) (nn : Byte) (s : State) : Result := .next (s.writeV x nn).advance

/-- `7XNN` (R131): wraps, no flag. -/
def execAddImm (x : Reg) (nn : Byte) (s : State) : Result :=
  .next (s.writeV x (s.readV x + nn)).advance

/-- `8XY0` (R132). -/
def execLdReg (x y : Reg) (s : State) : Result := .next (s.writeV x (s.readV y)).advance

/-- `8XY1` (R133): no flag. -/
def execOrReg (x y : Reg) (s : State) : Result :=
  .next (s.writeV x (s.readV x ||| s.readV y)).advance

/-- `8XY2` (R134): no flag. -/
def execAndReg (x y : Reg) (s : State) : Result :=
  .next (s.writeV x (s.readV x &&& s.readV y)).advance

/-- `8XY3` (R135): no flag. -/
def execXorReg (x y : Reg) (s : State) : Result :=
  .next (s.writeV x (s.readV x ^^^ s.readV y)).advance

/-- `8XY4` (R136): VX, then VF the carry. -/
def execAddReg (x y : Reg) (s : State) : Result :=
  let a := s.readV x
  let b := s.readV y
  .next (s.writeBoth x (a + b) (carryOut a b) .resultThenFlag).advance

/-- `8XY5` (R137): VF the no-borrow flag, then VX. -/
def execSub (x y : Reg) (s : State) : Result :=
  let a := s.readV x
  let b := s.readV y
  .next (s.writeBoth x (a - b) (noBorrow a b) .flagThenResult).advance

/-- `8XY6` (R138): VF the bit shifted out, then VX; VY is not read. -/
def execShr (x _y : Reg) (s : State) : Result :=
  let a := s.readV x
  .next (s.writeBoth x (a >>> 1) (shiftedOutRight a) .flagThenResult).advance

/-- `8XY7` (R139): VF the no-borrow flag, then VX. -/
def execSubn (x y : Reg) (s : State) : Result :=
  let a := s.readV x
  let b := s.readV y
  .next (s.writeBoth x (b - a) (noBorrow b a) .flagThenResult).advance

/-- `8XYE` (R140): VF the bit shifted out, then VX; VY is not read. -/
def execShl (x _y : Reg) (s : State) : Result :=
  let a := s.readV x
  .next (s.writeBoth x (a <<< 1) (shiftedOutLeft a) .flagThenResult).advance

/-- `CXNN` (R141): a fresh draw, masked. -/
def execRnd (x : Reg) (nn : Byte) (s : State) : Result :=
  .next ({ s with draws := s.draws + 1 }.writeV x (nn &&& s.randomByte)).advance

end Sys2Proof.Machine
end

