-- ==== Sys2Proof/Machine/Display.lean ====
section
/-! DEFINITION. The display family (spec 40): `00E0` and `DXYN`, with the sprite collision detector. -/

namespace Sys2Proof.Machine

/-- One sprite bit drawn at a pixel: a 1 XORs the pixel and collides when the pixel was 1; a 0 does
nothing (R101, R103). The pair is the framebuffer and the collision so far. -/
def drawBit (d : Frame × Bool) (x : Fin 64) (y : Fin 32) (bit : Bool) : Frame × Bool :=
  if bit then (Frame.toggle d.1 x y, d.2 || Frame.pixel d.1 x y) else d

/-- Row `r` of a sprite drawn from its byte, columns 0..7 from the left (R100, R103). -/
def drawRow (d : Frame × Bool) (vx vy : Byte) (r : Nat) (row : Byte) : Frame × Bool :=
  (List.range 8).foldl
    (fun acc c => drawBit acc (spriteColumn vx c) (spriteRow vy r) (spriteBit row c)) d

/-- The rows of a sprite drawn from row `r` on, top first (R103). -/
def drawRows (d : Frame × Bool) (vx vy : Byte) (r : Nat) : List Byte → Frame × Bool
  | [] => d
  | row :: rest => drawRows (drawRow d vx vy r row) vx vy (r + 1) rest

/-- The framebuffer and the collision bit of drawing the `n` bytes at I at (VX, VY) (R100, R101). -/
def State.drawn (s : State) (x y : Reg) (n : Nat) : Frame × Bool :=
  drawRows (s.fb, false) (s.readV x) (s.readV y) 0 (Memory.readAll s.mem s.i.toNat n)

/-- `00E0` (R102): every pixel 0 and DRAW set. -/
def execCls (s : State) : Result :=
  .next { s with fb := Frame.blank, draw := true }.advance

/-- `DXYN` (R103): range check, draw, VF the collision bit, DRAW set. -/
def execDrw (x y : Reg) (n : Nibble) (s : State) : Result :=
  let d := s.drawn x y n.toNat
  s.orRaise (s.checkRange n.toNat
    ({ s with fb := d.1, draw := true }.writeV vf (flagByte d.2)).advance)

end Sys2Proof.Machine
end

