-- ==== Sys2Proof/Machine/Flow.lean ====
section
/-! DEFINITION. The control transfers (spec 41): `00EE`, `1NNN`, `2NNN`, `BNNN`. -/

namespace Sys2Proof.Machine

/-- `00EE` (R112): the popped word is the committed PC. -/
def execRet (s : State) : Result :=
  s.orRaise (s.pop.map fun p => p.2.goto p.1)

/-- `1NNN` (R113). -/
def execJp (nnn : Addr) (s : State) : Result := .next (s.goto (addrOf nnn))

/-- `2NNN` (R114): push `pc0 + 2`, then jump. -/
def execCall (nnn : Addr) (s : State) : Result :=
  s.orRaise ((s.push (s.pc + 2)).map fun t => t.goto (addrOf nnn))

/-- `BNNN` (R115): the sum is not reduced to 12 bits. -/
def execJpV0 (nnn : Addr) (s : State) : Result :=
  .next (s.goto (addrOf nnn + wordOf (s.readV 0)))

end Sys2Proof.Machine
end

