-- ==== Sys2Proof/Machine/Index.lean ====
section
/-! DEFINITION. The index register, BCD and register-block transfers (spec 44). The transfers leave I
unchanged. -/

namespace Sys2Proof.Machine

/-- `ANNN` (R150). -/
def execLdI (nnn : Addr) (s : State) : Result := .next { s with i := addrOf nnn }.advance

/-- `FX1E` (R151): 16-bit addition, no flag. -/
def execAddIVx (x : Reg) (s : State) : Result :=
  .next { s with i := s.i + wordOf (s.readV x) }.advance

/-- `FX29` (R152): the glyph of VX's low nibble. -/
def execLdFVx (x : Reg) (s : State) : Result :=
  .next { s with i := glyphAddr (lowNibble (s.readV x)) }.advance

/-- `FX33` (R153): hundreds, tens, ones at I, I + 1, I + 2. -/
def execLdBVx (x : Reg) (s : State) : Result :=
  s.orRaise (s.checkRange 3
    { s with mem := Memory.writeAll s.mem s.i.toNat (bcdDigits (s.readV x)) }.advance)

/-- `FX55` (R154): V0..VX stored at I upwards. -/
def execLdMIVx (x : Reg) (s : State) : Result :=
  s.orRaise (s.checkRange (x.val + 1)
    { s with mem := Memory.writeAll s.mem s.i.toNat (s.regBlock x) }.advance)

/-- `FX65` (R155): V0..VX loaded from I upwards. -/
def execLdVxMI (x : Reg) (s : State) : Result :=
  s.orRaise (s.checkRange (x.val + 1) { s with v := s.loadBlock x }.advance)

end Sys2Proof.Machine
end

