-- ==== Sys2Proof/Machine/KeysTimers.lean ====
section
/-! DEFINITION. Key input and the timer instructions (spec 45). The tick itself ends the step
(Machine/Cycle.lean). -/

namespace Sys2Proof.Machine

/-- `EX9E` (R161). -/
def execSkp (x : Reg) (s : State) : Result :=
  .next (s.skipIf (s.pressed (lowNibble (s.readV x))))

/-- `EXA1` (R162). -/
def execSknp (x : Reg) (s : State) : Result :=
  .next (s.skipIf (!s.pressed (lowNibble (s.readV x))))

/-- `FX07` (R163): DT before this step's tick. -/
def execLdVxDT (x : Reg) (s : State) : Result := .next (s.writeV x s.dt).advance

/-- `FX0A` (R164): with no key pressed PC stays at the instruction; otherwise VX is the least pressed
key. -/
def execLdVxK (x : Reg) (s : State) : Result :=
  match s.leastPressed with
  | none => .next (s.goto s.pc)
  | some k => .next (s.writeV x (BitVec.ofNat 8 k.val)).advance

/-- `FX15` (R165). -/
def execLdDTVx (x : Reg) (s : State) : Result := .next { s with dt := s.readV x }.advance

/-- `FX18` (R166). -/
def execLdSTVx (x : Reg) (s : State) : Result := .next { s with st := s.readV x }.advance

end Sys2Proof.Machine
end

