-- ==== Sys2Proof/Machine/Step.lean ====
section
/-! DEFINITION. The step of the machine: one fetch-decode-execute-timer cycle (R81). -/

namespace Sys2Proof.Machine

/-- `Step()` (R81): the cycle of Machine/Cycle.lean over the meanings of Machine/Dispatch.lean. -/
def step (s : State) : Host.Outcome State Fault Refusal := cycle exec s

/-- The instruction whose bits are `w` (numbered as the opcode table numbers them) stored where `step`
fetches its next instruction, so that the next step runs it (log 17). -/
def State.withFetchWord (s : State) (nbits w : Nat) : State := s.placeWord (tableWord nbits w)

end Sys2Proof.Machine
end

