-- ==== Sys2Proof/Machine/HostOps.lean ====
section
/-! DEFINITION. The host operations (R40) and the core's interface (R39). `Step` is one of them; the
others act only between steps (R41). -/

namespace Sys2Proof.Machine

/-- The host operations of R40. -/
inductive HostOp where
  /-- `Initialize()` (R250). -/
  | init
  /-- `LoadProgram(bytes)`; none is a byte source that cannot be read (R252). -/
  | loadProgram (source : Option (List Byte))
  /-- `SetKeys(k)`: a full replacement snapshot (R31). -/
  | setKeys (keys : Vector Bool 16)
  /-- `Step()` (R81). -/
  | step
  /-- `AckFrame()` (R30). -/
  | ackFrame
  /-- `TimerTick()` (R169). -/
  | timerTick
  /-- Reading FB, DRAW, TONE, HALTED, CAUSE and the reports: `State.outputs`. -/
  | readOutputs
  /-- `DumpMemory()` (R218): `State.dumpMemory`. -/
  | dumpMemory
  deriving DecidableEq, Repr

/-- `Initialize()` (R250): the state of R37 with the machine's own parameters. The parameters and the
count of draws made are kept (log 16). DESIGN CHOICE (log 21): under `FB_RESET = any` the framebuffer's
draw advances the count `CXNN` uses, so with `RANDOM = supplied` it skips a byte of the list. -/
def State.initialized (s : State) : State :=
  let base : State :=
    { State.reset with
      params := s.params
      mem := Memory.writeAll [] fontBase s.params.font.toList
      draws := s.draws }
  match s.params.fbReset with
  | .zero => base
  | .any =>
    { base with
      fb := Config.resetFrame s.draws
      draw := Config.resetDraw s.draws
      draws := s.draws + 1 }

/-- `LoadProgram` (R252, R207): refused after the first `Step` (R40, R253), LoadError for an unreadable
source or an image over 3584 bytes, otherwise the bytes copied to 0x200 upwards. -/
def State.loadProgram (s : State) (source : Option (List Byte)) : Result :=
  if s.stepped then .refused .lateLoad
  else match source with
    | none => .next (s.raise (.loadError .unreadable))
    | some bytes =>
      if bytes.length > programMax then .next (s.raise (.loadError (.tooLong bytes.length)))
      else .next { s with mem := Memory.writeAll s.mem programStart bytes, report := none }

/-- `TimerTick()` (R169, R209): one tick in `external_tick` mode while not halted, otherwise nothing. -/
def State.timerTick (s : State) : State :=
  if !s.halted && s.params.timerMode == .externalTick then s.tick else s

/-- `DumpMemory()`: the 4096 bytes (R218). -/
def State.dumpMemory (s : State) : List Byte := Memory.readAll s.mem 0 memSize

/-- What the host sees between operations (R39). -/
structure Outputs where
  fb : Frame
  draw : Bool
  tone : Bool
  halted : Bool
  cause : Cause
  report : Option Report
  deriving DecidableEq, Repr

/-- The outputs of R39. -/
def State.outputs (s : State) : Outputs where
  fb := s.fb
  draw := s.draw
  tone := s.tone
  halted := s.halted
  cause := s.cause
  report := s.report

/-- Perform one host operation as a whole (R40, R41). -/
def perform (op : HostOp) (s : State) : Result :=
  match op with
  | .init => .next s.initialized
  | .loadProgram source => s.loadProgram source
  | .setKeys keys => .next { s with key := keys }
  | .step => Machine.step s
  | .ackFrame => .next { s with draw := false }
  | .timerTick => .next s.timerTick
  | .readOutputs => .next s
  | .dumpMemory => .next s

/-- The cause code of R201. -/
def Cause.code : Cause → Nat
  | .none => 0
  | .fetchOutOfRange _ => 2
  | .memoryOutOfRange _ _ _ _ => 3
  | .stackOverflow _ _ _ => 4
  | .stackUnderflow _ _ _ => 5
  | .loadError _ => 6

/-- The cause code a report carries (R201). -/
def Report.code : Report → Nat
  | .unknownOpcode _ _ => 1
  | .fatal c => Cause.code c

end Sys2Proof.Machine
end

