-- ==== Sys2Proof/Safety.lean ====
section
/-! DEFINITION. The terms claims are stated in: the invariant of the machine, what a step or an
instruction leaves unchanged, and the observation points of a run (R260). -/

namespace Sys2Proof

open Machine

/-- The machine's invariant, between operations. -/
structure Inv (s : State) : Prop where
  /-- Memory is in its canonical form. -/
  memory : Memory.wf s.mem
  /-- "every value it can be given is at most 0x10FE" (R24). -/
  pc : s.pc.toNat ≤ 0x10FE
  /-- Every slot holds a value a push can store, at most 0x1000 (R112). -/
  stack : ∀ k : Fin 16, s.stack[k].toNat ≤ 0x1000
  /-- CAUSE is NONE exactly while the core is not halted (R33). -/
  cause : s.halted = true ↔ s.cause ≠ .none
  /-- A halted core outputs TONE 0 (R34, R208, R209). -/
  tone : s.halted = true → s.tone = false
  /-- The opcode register holds nothing between steps (R32). -/
  opcode : s.opcode = none

/-- No fatal condition recorded: the premise of R260. -/
def NoFatal (s : State) : Prop := s.halted = false

/-- The state's components, one name each. -/
inductive Field where
  | params | mem | v | i | pc | stack | sp | dt | st | fb | draw | key
  | halted | cause | tone | opcode | report | stepped | draws
  deriving DecidableEq, Repr

/-- A component is the same in two states; of memory, every address reads as before. -/
def Field.Same (f : Field) (s t : State) : Prop :=
  match f with
  | .params => t.params = s.params
  | .mem => ∀ a, Memory.read t.mem a = Memory.read s.mem a
  | .v => ∀ k : Reg, t.readV k = s.readV k
  | .i => t.i = s.i
  | .pc => t.pc = s.pc
  | .stack => ∀ k : Fin 16, t.stack[k] = s.stack[k]
  | .sp => t.sp = s.sp
  | .dt => t.dt = s.dt
  | .st => t.st = s.st
  | .fb => ∀ x y, Frame.pixel t.fb x y = Frame.pixel s.fb x y
  | .draw => t.draw = s.draw
  | .key => ∀ k : Key, t.pressed k = s.pressed k
  | .halted => t.halted = s.halted
  | .cause => t.cause = s.cause
  | .tone => t.tone = s.tone
  | .opcode => t.opcode = s.opcode
  | .report => t.report = s.report
  | .stepped => t.stepped = s.stepped
  | .draws => t.draws = s.draws

/-- FRAME: every component not in the list is the same in `t` as in `s`. -/
def SameBut (changed : List Field) (s t : State) : Prop :=
  ∀ f : Field, f ∉ changed → f.Same s t

/-- FRAME of the V registers: every register not in the list is unchanged. -/
def RegsSameBut (changed : List Reg) (s t : State) : Prop :=
  ∀ k : Reg, k ∉ changed → t.readV k = s.readV k

/-- The next step fetches a word that decodes to the instruction: the core is not halted, the fetch is
in range (R60) and the big-endian word at PC is the instruction's (R54, R74). -/
structure Fetches (s : State) (i : Instr) (w : Word) : Prop where
  running : s.halted = false
  inMemory : s.pc.toNat + 1 ≤ 0xFFF
  word : w = concatBytes (Memory.read s.mem s.pc.toNat) (Memory.read s.mem (s.pc.toNat + 1))
  decoded : decodeWord s.params w = some i

/-- An access of n bytes at I stays within 0x000..0xFFF; no byte always does (R53, R57). -/
def AccessFits (s : State) (n : Nat) : Prop := n = 0 ∨ s.i.toNat + n - 1 ≤ 0xFFF

/-- The condition under which an instruction raises its fatal condition (R201, R211). -/
def RaisesIn (s : State) : Instr → Prop
  | .call _ => s.sp.val = 16
  | .ret => s.sp.val = 0
  | .drw _ _ n => ¬AccessFits s n.toNat
  | .ldBVx _ => ¬AccessFits s 3
  | .ldMIVx x => ¬AccessFits s (x.val + 1)
  | .ldVxMI x => ¬AccessFits s (x.val + 1)
  | .cls | .jp _ | .jpV0 _ => False
  | .seImm _ _ | .sneImm _ _ | .seReg _ _ | .sneReg _ _ => False
  | .ldImm _ _ | .addImm _ _ | .ldReg _ _ | .orReg _ _ | .andReg _ _ | .xorReg _ _ => False
  | .addReg _ _ | .sub _ _ | .shr _ _ | .subn _ _ | .shl _ _ | .rnd _ _ => False
  | .ldI _ | .addIVx _ | .ldFVx _ => False
  | .skp _ | .sknp _ | .ldVxDT _ | .ldVxK _ | .ldDTVx _ | .ldSTVx _ => False

/-- The V registers an instruction writes: its destination, and VF for the six flag-writing
instructions (R21, R22). -/
def destRegs : Instr → List Reg
  | .ldImm x _ | .addImm x _ | .ldReg x _ | .orReg x _ | .andReg x _ | .xorReg x _ => [x]
  | .addReg x _ | .sub x _ | .shr x _ | .subn x _ | .shl x _ => [x, vf]
  | .rnd x _ | .ldVxDT x | .ldVxK x => [x]
  | .drw _ _ _ => [vf]
  | .ldVxMI x => (List.finRange 16).filter (· ≤ x)
  | .cls | .ret | .jp _ | .call _ | .jpV0 _ => []
  | .seImm _ _ | .sneImm _ _ | .seReg _ _ | .sneReg _ _ | .skp _ | .sknp _ => []
  | .ldDTVx _ | .ldSTVx _ | .ldI _ | .addIVx _ | .ldFVx _ | .ldBVx _ | .ldMIVx _ => []

/-- A sprite bit equal to 1 of the sprite of n rows at I, drawn at (VX, VY), lands on the pixel in
column px and row py (R100, R101). -/
def SpriteCovers (s : State) (x y : Reg) (n : Nat) (px : Fin 64) (py : Fin 32) : Prop :=
  ∃ r c : Nat, r < n ∧ c < 8 ∧
    (Memory.read s.mem (s.i.toNat + r)).getLsbD (7 - c) = true ∧
    px.val = ((s.readV x).toNat % 64 + c) % 64 ∧ py.val = ((s.readV y).toNat % 32 + r) % 32

/-- `Step` called k times in a row, the core halted or not. -/
def StepCalls (k : Nat) (s t : State) : Prop :=
  match k with
  | 0 => t = s
  | k + 1 => ∃ u, step s = .next u ∧ StepCalls k u t

/-! ## Runs and observation points (R260) -/

/-- A launch state: `Initialize` from any state, then `LoadProgram` once (R253, R260). -/
def Launch (s : State) : Prop :=
  ∃ (before : State) (source : Option (List Byte)),
    perform (.loadProgram source) before.initialized = .next s

/-- The operations a host performs between the steps of a run (R254): not `Step` itself, and not
`Initialize` and `LoadProgram`, which make the launch state (R253). -/
def BetweenSteps : HostOp → Prop
  | .setKeys _ | .ackFrame | .timerTick | .readOutputs | .dumpMemory => True
  | .init | .loadProgram _ | .step => False

/-- The state after host operations between two steps. -/
def AfterOps : List HostOp → State → State → Prop
  | [], s, t => t = s
  | op :: rest, s, t => BetweenSteps op ∧ ∃ u, perform op s = .next u ∧ AfterOps rest u t

/-- A run from step boundary to step boundary: one list of host operations for each step, performed
before it (R254). The run ends when the core halts, so no step begins in a halted core (R260). -/
def AfterRounds : List (List HostOp) → State → State → Prop
  | [], s, t => t = s
  | ops :: rest, s, t =>
    s.halted = false ∧ ∃ u v, AfterOps ops s u ∧ step u = .next v ∧ AfterRounds rest v t

/-- A run of R260: rounds, and the host operations after the last step, none after a halt. -/
def Run (rounds : List (List HostOp)) (last : List HostOp) (s t : State) : Prop :=
  ∃ u, AfterRounds rounds s u ∧ AfterOps last u t ∧ (u.halted = true → last = [])

/-- Observation point (a) of R260: the step boundary after exactly k completed steps. Every step of the
rounds is completed: none begins in a halted core and the last, like those before it, raised nothing.
DESIGN CHOICE (log 20): the launch state is the boundary of k = 0. -/
def AfterSteps (k : Nat) (rounds : List (List HostOp)) (s t : State) : Prop :=
  rounds.length = k ∧ AfterRounds rounds s t ∧ NoFatal t

/-- Observation points (b) and (c) of R260: the first step boundary of a run at which `p` holds.
DESIGN CHOICE (log 20): the launch state counts as a step boundary, the one after 0 steps, so `p` may hold
first there; the spec does not say. -/
def FirstBoundary (p : State → Prop) (rounds : List (List HostOp)) (s t : State) : Prop :=
  AfterRounds rounds s t ∧ p t ∧
    ∀ j u, j < rounds.length → AfterRounds (rounds.take j) s u → ¬p u

/-- The first step boundary where PC equals `a` (R260 b), the launch state among them (log 20). -/
def FirstAtPc (a : Word) : List (List HostOp) → State → State → Prop := FirstBoundary fun t => t.pc = a

/-- The first step boundary where the core is halted (R260 c), the launch state among them (log 20). -/
def FirstHalted : List (List HostOp) → State → State → Prop := FirstBoundary fun t => t.halted = true

/-- Two states a program cannot tell apart by their stacks: equal but for the slots at and above SP,
whose stale values are never observable (R25). -/
def SameLiveStack (s t : State) : Prop :=
  ∃ stack : Vector Word 16, t = { s with stack := stack } ∧
    ∀ k : Fin 16, k.val < s.sp.val → stack[k] = s.stack[k]

end Sys2Proof
end

