-- ==== Sys2Proof/Certificates/Slice0/Obligations.lean ====
section
/-! DEFINITION. The statements for the provers. Each docstring names the rule of the spec it formalises
and, where a clause rests on a decision of the spec (D<n>) or on a choice of this model (log <n>), says
so. The frame of an instruction is said by `SameBut` (every other component, every byte of memory among
them, as before) and `RegsSameBut` (every other V register as before). -/

open Sys2Proof Sys2Proof.Machine

/-! ## Encoding -/

/-- Decoding the bytes of a well-formed instruction gives it back with the bytes that follow, for every
instruction, every operand and every choice of the parameters. -/
def Obligations.DecodeEncodeRoundTrip : Prop :=
  ∀ (p : Params) (i : Instr) (rest : List Byte), WellFormed p i = true →
    decode p (encodeBytes i ++ rest) = .ok (i, rest)

/-- Under DECODE_STRICT no word but its encoding decodes to an instruction, and what decodes is
well-formed (D5). -/
def Obligations.StrictDecodingIsInjective : Prop :=
  ∀ (p : Params) (w : Word) (i : Instr), p.decodeStrict = true → decodeWord p w = some i →
    encode i = w ∧ WellFormed p i = true

/-- The UNKNOWN space under DECODE_STRICT and HAS_9XY0, in full (the list of R78, which the spec derives
from R74; D4, D5). -/
def Obligations.UnknownSpaceInFull : Prop :=
  ∀ (p : Params) (w : Word), p.decodeStrict = true → p.has9xy0 = true →
    (decodeWord p w = none ↔
      (w.toNat / 4096 = 0x0 ∧ w.toNat ≠ 0x00E0 ∧ w.toNat ≠ 0x00EE) ∨
      (w.toNat / 4096 = 0x5 ∧ w.toNat % 16 ≠ 0) ∨
      (w.toNat / 4096 = 0x8 ∧ w.toNat % 16 ∈ [0x8, 0x9, 0xA, 0xB, 0xC, 0xD, 0xF]) ∨
      (w.toNat / 4096 = 0x9 ∧ w.toNat % 16 ≠ 0) ∨
      (w.toNat / 4096 = 0xE ∧ w.toNat % 256 ∉ [0x9E, 0xA1]) ∨
      (w.toNat / 4096 = 0xF ∧
        w.toNat % 256 ∉ [0x07, 0x0A, 0x15, 0x18, 0x1E, 0x29, 0x33, 0x55, 0x65]))

/-- The parameters' other values: without DECODE_STRICT group 0 is decoded by its low byte and groups 5
and 9 ignore the low nibble; without HAS_9XY0 every group-9 word is UNKNOWN (R75, R76; D4, D5). -/
def Obligations.DecodeParameters : Prop :=
  ∀ (p : Params) (w : Word),
    (p.decodeStrict = false → w.toNat / 4096 = 0 →
      decodeWord p w =
        if w.toNat % 256 = 0xE0 then some .cls
        else if w.toNat % 256 = 0xEE then some .ret else none) ∧
    (p.decodeStrict = false → w.toNat / 4096 = 5 →
      ∃ x y : Reg, x.val = w.toNat / 256 % 16 ∧ y.val = w.toNat / 16 % 16 ∧
        decodeWord p w = some (.seReg x y)) ∧
    (p.decodeStrict = false → p.has9xy0 = true → w.toNat / 4096 = 9 →
      ∃ x y : Reg, x.val = w.toNat / 256 % 16 ∧ y.val = w.toNat / 16 % 16 ∧
        decodeWord p w = some (.sneReg x y)) ∧
    (p.has9xy0 = false → w.toNat / 4096 = 9 → decodeWord p w = none)

/-- Words written out from the table, one or more of every family (a sanity statement). -/
def Obligations.SampleWordsDecode : Prop :=
  [0x00E0, 0xD125, 0x00EE, 0x2300, 0x3100, 0x5340, 0x611A, 0x8124, 0xC10F, 0xA300, 0xF265, 0xE19E,
      0xF20A].map (decodeWord defaultParams) =
    [some .cls, some (.drw 1 2 5), some .ret, some (.call 0x300), some (.seImm 1 0), some (.seReg 3 4),
      some (.ldImm 1 0x1A), some (.addReg 1 2), some (.rnd 1 0x0F), some (.ldI 0x300), some (.ldVxMI 2),
      some (.skp 1), some (.ldVxK 2)]

/-! ## The step -/

/-- A step runs the decoded instruction: `step` is `exec` of it, with the word in the opcode register
and no report yet; after it the timers tick unless a fatal condition was raised (the spec's decision D13; the
step sees a raise by HALTED after `exec`, log 15) or the mode is `external_tick` (D12), and the opcode
register is empty (log 7, log 8, log 9). -/
def Obligations.StepRunsDecodedInstruction : Prop :=
  ∀ (s : State) (i : Instr) (w : Word), Fetches s i w →
    step s =
      match exec i { s with opcode := some w, report := none } with
      | .next t =>
        .next { (if t.halted = false ∧ t.params.timerMode = .perStep then t.tick else t) with
          opcode := none, stepped := true }
      | .fault f => .fault f
      | .refused r => .refused r

/-- UNKNOWN words: the report, PC + 2, the tick, and nothing else (R202; the report is the model's
output field, log 8). -/
def Obligations.UnknownWordStep : Prop :=
  ∀ (s : State) (w : Word), s.halted = false → s.pc.toNat + 1 ≤ 0xFFF →
    w = concatBytes (Memory.read s.mem s.pc.toNat) (Memory.read s.mem (s.pc.toNat + 1)) →
    decodeWord s.params w = none →
    ∃ t, step s = .next t ∧ t.report = some (.unknownOpcode s.pc w) ∧ t.pc = s.pc + 2 ∧
      (s.params.timerMode = .perStep →
        t.dt.toNat = s.dt.toNat - 1 ∧ t.st.toNat = s.st.toNat - 1 ∧ (t.tone = true ↔ s.st.toNat ≠ 0)) ∧
      (s.params.timerMode = .externalTick → t.dt = s.dt ∧ t.st = s.st ∧ t.tone = s.tone) ∧
      SameBut [.report, .pc, .dt, .st, .tone, .opcode, .stepped] s t

/-- A fetch that would pass 0xFFF is a fatal condition: PC stays, the timers do not tick, no byte is
fetched (R60, R203, with the halted state of D9 and TONE 0 of D13). -/
def Obligations.FetchPastMemoryHalts : Prop :=
  ∀ s : State, s.halted = false → s.pc.toNat + 1 > 0xFFF →
    ∃ t, step s = .next t ∧ t.halted = true ∧ t.cause = .fetchOutOfRange s.pc ∧ t.tone = false ∧
      t.report = some (.fatal (.fetchOutOfRange s.pc)) ∧
      SameBut [.halted, .cause, .tone, .report, .opcode, .stepped] s t

/-- A step while halted does nothing to the core; TONE is 0, there is no report, and the host protocol
records a step performed (R209; D9, D13, log 8, log 9). -/
def Obligations.HaltedStepDoesNothing : Prop :=
  ∀ s : State, s.halted = true →
    ∃ t, step s = .next t ∧ t.tone = false ∧ t.report = none ∧ t.stepped = true ∧
      SameBut [.tone, .report, .stepped] s t

/-- Fatal conditions are precise: a step that halts the core shows no other effect, leaves PC at pc0
and records and reports its cause (R208; D8, D9). -/
def Obligations.FatalStepsArePrecise : Prop :=
  ∀ s t : State, s.halted = false → step s = .next t → t.halted = true →
    t.cause ≠ .none ∧ t.report = some (.fatal t.cause) ∧ t.tone = false ∧
      SameBut [.halted, .cause, .tone, .report, .opcode, .stepped] s t

/-- Which instructions raise, and exactly when: CALL with SP = 16, RET with SP = 0, and the four
memory instructions when their access passes 0xFFF; no other (R201, R211; D11, D29). -/
def Obligations.FatalConditionsInFull : Prop :=
  ∀ (i : Instr) (s t : State), s.halted = false → exec i s = .next t →
    (t.halted = true ↔ RaisesIn s i)

/-- Every step answers a next state, from every state: nothing suspends mid-instruction, faults the
interface or is refused (R5; log 1). -/
def Obligations.EveryStepCompletes : Prop :=
  ∀ s : State, ∃ t, step s = .next t

/-- `HALTED` is never cleared by a step, and steps after a halt change nothing but the outputs TONE and
report and the protocol's record of a step (R209, over any number of steps; D9, log 8, log 9). -/
def Obligations.HaltedForEver : Prop :=
  ∀ (k : Nat) (s t : State), s.halted = true → StepCalls k s t →
    t.halted = true ∧ SameBut [.tone, .report, .stepped] s t

/-- The timer tick of a completed step (R167, R168; D13): under `per_step` each timer goes down by one
from the value the instruction left and stops at 0, and TONE is 1 exactly when the tick found ST
nonzero; under `external_tick` the step leaves what the instruction left (D12). -/
def Obligations.CompletedStepTicks : Prop :=
  ∀ (s t : State) (i : Instr) (w : Word), Fetches s i w → step s = .next t → t.halted = false →
    (s.params.timerMode = .perStep →
      ((∀ x, i ≠ .ldDTVx x) → t.dt.toNat = s.dt.toNat - 1) ∧
      ((∀ x, i ≠ .ldSTVx x) → t.st.toNat = s.st.toNat - 1 ∧ (t.tone = true ↔ s.st.toNat ≠ 0)) ∧
      (∀ x, i = .ldDTVx x → t.dt.toNat = (s.readV x).toNat - 1) ∧
      (∀ x, i = .ldSTVx x → t.st.toNat = (s.readV x).toNat - 1 ∧
        (t.tone = true ↔ (s.readV x).toNat ≠ 0))) ∧
    (s.params.timerMode = .externalTick →
      t.tone = s.tone ∧ ((∀ x, i ≠ .ldDTVx x) → t.dt = s.dt) ∧
        ((∀ x, i ≠ .ldSTVx x) → t.st = s.st) ∧
        (∀ x, i = .ldDTVx x → t.dt = s.readV x) ∧ (∀ x, i = .ldSTVx x → t.st = s.readV x))

/-! ## The whole machine -/

/-- Every step keeps the invariant: memory in canonical form (the model's own, log 14), PC at most 0x10FE
(BNNN not reduced, the spec's decision D7), every stack slot at most 0x1000, HALTED exactly with a cause
(D9), TONE 0 while halted (D13), the opcode register empty (log 7). -/
def Obligations.StepKeepsInvariant : Prop :=
  ∀ s t : State, Inv s → step s = .next t → Inv t

/-- Every host operation keeps the invariant, whose clauses rest on what `StepKeepsInvariant` names (D7,
D9, D13, log 7, log 14); a failed load halts with TONE 0 (D22, log 11). -/
def Obligations.HostOperationsKeepInvariant : Prop :=
  ∀ (op : HostOp) (s t : State), Inv s → perform op s = .next t → Inv t

/-- The invariant holds after reset: HALTED 0 with no cause and TONE 0 are the spec's decisions D9 and
D14, the empty opcode register and memory's canonical form the model's (log 7, log 14). -/
def Obligations.ResetMeetsInvariant : Prop :=
  Inv State.reset

/-- The writers of every component but V and PC: what an instruction that raises nothing changes is
written by the instructions the spec names for it and by no other, and DRAW is never cleared
(R23, R25 to R31, R36, R58). That FX55 and FX65 leave I is the spec's decision D18; the clauses on the
count of draws, the opcode register, the report and the protocol's record of a step are about the model's
own fields (log 4, log 7, log 8, log 9). -/
def Obligations.OnlyNamedWritersChangeState : Prop :=
  ∀ (i : Instr) (s t : State), s.halted = false → exec i s = .next t → t.halted = false →
    (¬Field.mem.Same s t → ∃ x, i = .ldBVx x ∨ i = .ldMIVx x) ∧
    (¬Field.i.Same s t → (∃ nnn, i = .ldI nnn) ∨ ∃ x, i = .addIVx x ∨ i = .ldFVx x) ∧
    (¬Field.stack.Same s t → ∃ nnn, i = .call nnn) ∧
    (¬Field.sp.Same s t → i = .ret ∨ ∃ nnn, i = .call nnn) ∧
    (¬Field.dt.Same s t → ∃ x, i = .ldDTVx x) ∧
    (¬Field.st.Same s t → ∃ x, i = .ldSTVx x) ∧
    (¬Field.fb.Same s t → i = .cls ∨ ∃ x y n, i = .drw x y n) ∧
    (¬Field.draw.Same s t → i = .cls ∨ ∃ x y n, i = .drw x y n) ∧
    (s.draw = true → t.draw = true) ∧
    (¬Field.draws.Same s t → ∃ x nn, i = .rnd x nn) ∧
    Field.key.Same s t ∧ Field.params.Same s t ∧ Field.cause.Same s t ∧ Field.tone.Same s t ∧
    Field.opcode.Same s t ∧ Field.report.Same s t ∧ Field.stepped.Same s t

/-- The writers of the V registers: a register changes only when it is a destination of the
instruction; VF changes as a flag only for the six flag-writing instructions (R21, R22). -/
def Obligations.OnlyDestinationRegistersChange : Prop :=
  ∀ (i : Instr) (s t : State), exec i s = .next t → RegsSameBut (destRegs i) s t

/-- The committed PC of every instruction that raises nothing, and of UNKNOWN (R82). -/
def Obligations.CommittedPcByClass : Prop :=
  (∀ (w : Word) (s t : State), execUnknown w s = .next t → t.pc = s.pc + 2) ∧
  ∀ (i : Instr) (s t : State), exec i s = .next t → s.halted = false → t.halted = false →
    match i with
    | .jp nnn => t.pc.toNat = nnn.toNat
    | .call nnn => t.pc.toNat = nnn.toNat
    | .jpV0 nnn => t.pc.toNat = nnn.toNat + (s.readV 0).toNat
    | .ret => ∀ k : Fin 16, k.val + 1 = s.sp.val → t.pc = s.stack[k]
    | .seImm x nn => t.pc = if s.readV x = nn then s.pc + 4 else s.pc + 2
    | .sneImm x nn => t.pc = if s.readV x ≠ nn then s.pc + 4 else s.pc + 2
    | .seReg x y => t.pc = if s.readV x = s.readV y then s.pc + 4 else s.pc + 2
    | .sneReg x y => t.pc = if s.readV x ≠ s.readV y then s.pc + 4 else s.pc + 2
    | .skp x => ∀ k : Key, k.val = (s.readV x).toNat % 16 →
        t.pc = if s.pressed k = true then s.pc + 4 else s.pc + 2
    | .sknp x => ∀ k : Key, k.val = (s.readV x).toNat % 16 →
        t.pc = if s.pressed k = false then s.pc + 4 else s.pc + 2
    | .ldVxK _ => t.pc = if ∃ k, s.pressed k = true then s.pc + 2 else s.pc
    | _ => t.pc = s.pc + 2

/-- A stale stack slot is never observable: two states equal but for the slots at and above SP step to
states equal but for the slots at and above SP (R25). -/
def Obligations.StaleStackSlotsAreInvisible : Prop :=
  ∀ s s' t : State, SameLiveStack s s' → step s = .next t →
    ∃ t', step s' = .next t' ∧ SameLiveStack t t'

/-! ## Display -/

/-- `00E0` (R102): every pixel 0 and DRAW set, whatever the framebuffer held; under DECODE_STRICT no
other word is `00E0`. -/
def Obligations.ClearScreen : Prop :=
  (∀ p, decodeWord p 0x00E0 = some .cls) ∧
  (∀ p w, p.decodeStrict = true → decodeWord p w = some .cls → w = 0x00E0) ∧
  ∀ s : State, ∃ t, exec .cls s = .next t ∧
    (∀ x y, Frame.pixel t.fb x y = false) ∧ t.draw = true ∧ t.pc = s.pc + 2 ∧
    SameBut [.fb, .draw, .pc] s t

/-- `DXYN` (R100, R101, R103): a pixel is XORed exactly when a sprite bit 1 lands on it, VF is 1 exactly
when such a bit lands on a set pixel, DRAW is set, for every N (0 among them, D20); an access past 0xFFF
raises instead. Most significant bit leftmost is the spec's decision D15. -/
def Obligations.DrawSpriteXorsAndCollides : Prop :=
  (∀ p x y n, decodeWord p
    (BitVec.ofNat 16 (0xD000 + Fin.val x * 256 + Fin.val y * 16 + BitVec.toNat n)) =
      some (.drw x y n)) ∧
  (∀ s x y n, AccessFits s (BitVec.toNat n) → ∃ t, exec (.drw x y n) s = .next t ∧
    (∀ px py, Frame.pixel t.fb px py = true ↔
      Xor (Frame.pixel s.fb px py = true) (SpriteCovers s x y n.toNat px py)) ∧
    (t.readV vf = 1 ∧ (∃ px py, SpriteCovers s x y n.toNat px py ∧ Frame.pixel s.fb px py = true) ∨
      t.readV vf = 0 ∧ ¬∃ px py, SpriteCovers s x y n.toNat px py ∧ Frame.pixel s.fb px py = true) ∧
    t.draw = true ∧ t.pc = s.pc + 2 ∧
    RegsSameBut [vf] s t ∧ SameBut [.fb, .draw, .v, .pc] s t) ∧
  ∀ s x y n, ¬AccessFits s (BitVec.toNat n) →
    exec (.drw x y n) s = .next (s.raise (.memoryOutOfRange s.pc s.opcode s.i n.toNat))

/-- Drawing the same sprite twice at the same place restores the framebuffer (R103 e), and the second
draw's VF is 1 exactly when a sprite bit 1 lands on a pixel that was clear at first; where it landed on
clear pixels only, exactly when the sprite has any 1 bit (log 19). The same place: the second draw's
coordinates are the first's modulo 64 and 32, which matters only where VX or VY is VF, the flag of the
first draw. Which pixels a sprite bit lands on follows the spec's decision D15. -/
def Obligations.DrawingTwiceRestores : Prop :=
  ∀ (s t : State) (x y : Reg) (n : Nibble), AccessFits s n.toNat → exec (.drw x y n) s = .next t →
    (t.readV x).toNat % 64 = (s.readV x).toNat % 64 →
    (t.readV y).toNat % 32 = (s.readV y).toNat % 32 →
    ∃ u, exec (.drw x y n) t = .next u ∧ u.fb = s.fb ∧
      (u.readV vf = 1 ↔
        ∃ px py, SpriteCovers s x y n.toNat px py ∧ Frame.pixel s.fb px py = false) ∧
      ((∀ px py, SpriteCovers s x y n.toNat px py → Frame.pixel s.fb px py = false) →
        (u.readV vf = 1 ↔ ∃ r c : Nat, r < n.toNat ∧ c < 8 ∧
          (Memory.read s.mem (s.i.toNat + r)).getLsbD c = true))

/-! ## Control transfer -/

/-- `00EE` (R111, R112): the top entry becomes PC, the slot keeps its value; with an empty stack
StackUnderflow and no change. -/
def Obligations.ReturnFromSubroutine : Prop :=
  (∀ p, decodeWord p 0x00EE = some .ret) ∧
  (∀ p w, p.decodeStrict = true → decodeWord p w = some .ret → w = 0x00EE) ∧
  (∀ (s : State) (k : Fin 16), s.sp.val = k.val + 1 → ∃ t, exec .ret s = .next t ∧
    t.pc = s.stack[k] ∧ t.sp.val = k.val ∧ SameBut [.pc, .sp] s t) ∧
  ∀ s : State, s.sp.val = 0 →
    exec .ret s = .next (s.raise (.stackUnderflow s.pc s.opcode s.sp))

/-- `1NNN` (R113). -/
def Obligations.Jump : Prop :=
  (∀ p nnn, decodeWord p (BitVec.ofNat 16 (0x1000 + BitVec.toNat nnn)) = some (.jp nnn)) ∧
  ∀ s nnn, ∃ t, exec (.jp nnn) s = .next t ∧ t.pc.toNat = nnn.toNat ∧ SameBut [.pc] s t

/-- `2NNN` (R110, R114): the address after the call is pushed and PC is NNN; with a full stack
StackOverflow and no change. -/
def Obligations.CallSubroutine : Prop :=
  (∀ p nnn, decodeWord p (BitVec.ofNat 16 (0x2000 + BitVec.toNat nnn)) = some (.call nnn)) ∧
  (∀ (s : State) (nnn : Addr) (k : Fin 16), s.sp.val = k.val → ∃ t, exec (.call nnn) s = .next t ∧
    t.stack[k] = s.pc + 2 ∧ (∀ j : Fin 16, j ≠ k → t.stack[j] = s.stack[j]) ∧
    t.sp.val = k.val + 1 ∧ t.pc.toNat = nnn.toNat ∧ SameBut [.stack, .sp, .pc] s t) ∧
  ∀ (s : State) (nnn : Addr), s.sp.val = 16 →
    exec (.call nnn) s = .next (s.raise (.stackOverflow s.pc s.opcode s.sp))

/-- The round trip: after a call and the matching return, PC is the address after the call and SP what
it was, whatever else ran between and left SP and the live slots as the call left them (R114). -/
def Obligations.CallThenReturn : Prop :=
  ∀ (s t u : State) (nnn : Addr), s.sp.val < 16 → exec (.call nnn) s = .next t →
    u.sp = t.sp → (∀ k : Fin 16, k.val < t.sp.val → u.stack[k] = t.stack[k]) →
    ∃ v, exec .ret u = .next v ∧ v.pc = s.pc + 2 ∧ v.sp = s.sp ∧
      ∀ k : Fin 16, k.val < s.sp.val → v.stack[k] = s.stack[k]

/-- `BNNN` (R115): the sum of NNN and V0, not reduced to 12 bits (D7). -/
def Obligations.JumpWithOffset : Prop :=
  (∀ p nnn, decodeWord p (BitVec.ofNat 16 (0xB000 + BitVec.toNat nnn)) = some (.jpV0 nnn)) ∧
  ∀ s nnn, ∃ t, exec (.jpV0 nnn) s = .next t ∧ t.pc.toNat = nnn.toNat + (s.readV 0).toNat ∧
    SameBut [.pc] s t

/-! ## Skips -/

/-- `3XNN` (R121). -/
def Obligations.SkipIfEqualImmediate : Prop :=
  (∀ p x nn, decodeWord p (BitVec.ofNat 16 (0x3000 + Fin.val x * 256 + BitVec.toNat nn)) =
    some (.seImm x nn)) ∧
  ∀ s x nn, ∃ t, exec (.seImm x nn) s = .next t ∧
    (t.pc = if s.readV x = nn then s.pc + 4 else s.pc + 2) ∧ SameBut [.pc] s t

/-- `4XNN` (R122), the complement of `3XNN`: exactly one of the two skips. -/
def Obligations.SkipIfNotEqualImmediate : Prop :=
  (∀ p x nn, decodeWord p (BitVec.ofNat 16 (0x4000 + Fin.val x * 256 + BitVec.toNat nn)) =
    some (.sneImm x nn)) ∧
  (∀ s x nn, ∃ t, exec (.sneImm x nn) s = .next t ∧
    (t.pc = if s.readV x ≠ nn then s.pc + 4 else s.pc + 2) ∧ SameBut [.pc] s t) ∧
  ∀ s x nn, ∃ t u, exec (.sneImm x nn) s = .next t ∧ exec (.seImm x nn) s = .next u ∧
    (t.pc = s.pc + 4 ↔ u.pc ≠ s.pc + 4)

/-- `5XY0` (R123); the words with a nonzero low nibble do not decode to it under DECODE_STRICT. -/
def Obligations.SkipIfRegistersEqual : Prop :=
  (∀ p x y, decodeWord p (BitVec.ofNat 16 (0x5000 + Fin.val x * 256 + Fin.val y * 16)) =
    some (.seReg x y)) ∧
  (∀ p w, p.decodeStrict = true → BitVec.toNat w / 4096 = 5 → BitVec.toNat w % 16 ≠ 0 →
    decodeWord p w = none) ∧
  ∀ s x y, ∃ t, exec (.seReg x y) s = .next t ∧
    (t.pc = if s.readV x = s.readV y then s.pc + 4 else s.pc + 2) ∧ SameBut [.pc] s t

/-- `9XY0` (R124), decoded when HAS_9XY0; otherwise every group-9 word is UNKNOWN (D4). -/
def Obligations.SkipIfRegistersDiffer : Prop :=
  (∀ p x y, decodeWord p (BitVec.ofNat 16 (0x9000 + Fin.val x * 256 + Fin.val y * 16)) =
    if p.has9xy0 = true then some (.sneReg x y) else none) ∧
  (∀ p w, p.has9xy0 = false → BitVec.toNat w / 4096 = 9 → decodeWord p w = none) ∧
  ∀ s x y, ∃ t, exec (.sneReg x y) s = .next t ∧
    (t.pc = if s.readV x ≠ s.readV y then s.pc + 4 else s.pc + 2) ∧ SameBut [.pc] s t

/-! ## Registers and the ALU -/

/-- `6XNN` (R130). -/
def Obligations.LoadImmediate : Prop :=
  (∀ p x nn, decodeWord p (BitVec.ofNat 16 (0x6000 + Fin.val x * 256 + BitVec.toNat nn)) =
    some (.ldImm x nn)) ∧
  ∀ s x nn, ∃ t, exec (.ldImm x nn) s = .next t ∧ t.readV x = nn ∧ t.pc = s.pc + 2 ∧
    RegsSameBut [x] s t ∧ SameBut [.v, .pc] s t

/-- `7XNN` (R131): the sum modulo 256; VF keeps its value unless it is the destination. -/
def Obligations.AddImmediateWraps : Prop :=
  (∀ p x nn, decodeWord p (BitVec.ofNat 16 (0x7000 + Fin.val x * 256 + BitVec.toNat nn)) =
    some (.addImm x nn)) ∧
  ∀ s x nn, ∃ t, exec (.addImm x nn) s = .next t ∧
    (t.readV x).toNat = ((s.readV x).toNat + nn.toNat) % 256 ∧ t.pc = s.pc + 2 ∧
    RegsSameBut [x] s t ∧ SameBut [.v, .pc] s t

/-- `8XY0` (R132). -/
def Obligations.RegisterMove : Prop :=
  (∀ p x y, decodeWord p (BitVec.ofNat 16 (0x8000 + Fin.val x * 256 + Fin.val y * 16)) =
    some (.ldReg x y)) ∧
  ∀ s x y, ∃ t, exec (.ldReg x y) s = .next t ∧ t.readV x = s.readV y ∧ t.pc = s.pc + 2 ∧
    RegsSameBut [x] s t ∧ SameBut [.v, .pc] s t

/-- `8XY1`, `8XY2`, `8XY3` (R133, R134, R135), bit by bit; VF keeps its value unless it is the
destination (the spec's decision D19). -/
def Obligations.LogicOperations : Prop :=
  (∀ p x y, decodeWord p (BitVec.ofNat 16 (0x8001 + Fin.val x * 256 + Fin.val y * 16)) =
    some (.orReg x y)) ∧
  (∀ p x y, decodeWord p (BitVec.ofNat 16 (0x8002 + Fin.val x * 256 + Fin.val y * 16)) =
    some (.andReg x y)) ∧
  (∀ p x y, decodeWord p (BitVec.ofNat 16 (0x8003 + Fin.val x * 256 + Fin.val y * 16)) =
    some (.xorReg x y)) ∧
  (∀ s x y, ∃ t, exec (.orReg x y) s = .next t ∧
    (∀ b < 8, (t.readV x).getLsbD b = ((s.readV x).getLsbD b || (s.readV y).getLsbD b)) ∧
    t.pc = s.pc + 2 ∧ RegsSameBut [x] s t ∧ SameBut [.v, .pc] s t) ∧
  (∀ s x y, ∃ t, exec (.andReg x y) s = .next t ∧
    (∀ b < 8, (t.readV x).getLsbD b = ((s.readV x).getLsbD b && (s.readV y).getLsbD b)) ∧
    t.pc = s.pc + 2 ∧ RegsSameBut [x] s t ∧ SameBut [.v, .pc] s t) ∧
  ∀ s x y, ∃ t, exec (.xorReg x y) s = .next t ∧
    (∀ b < 8, (t.readV x).getLsbD b = ((s.readV x).getLsbD b != (s.readV y).getLsbD b)) ∧
    t.pc = s.pc + 2 ∧ RegsSameBut [x] s t ∧ SameBut [.v, .pc] s t

/-- `8XY4` (R136): the sum modulo 256 in VX and the carry in VF; for X = F the carry is final, the spec's
decision D3 (R129, the same under both values of ALU_VF_DEST). -/
def Obligations.AddWithCarryOut : Prop :=
  (∀ p x y, decodeWord p (BitVec.ofNat 16 (0x8004 + Fin.val x * 256 + Fin.val y * 16)) =
    some (.addReg x y)) ∧
  ∀ s x y, ∃ t, exec (.addReg x y) s = .next t ∧
    (x ≠ vf → (t.readV x).toNat = ((s.readV x).toNat + (s.readV y).toNat) % 256) ∧
    (t.readV vf).toNat = (if (s.readV x).toNat + (s.readV y).toNat > 255 then 1 else 0) ∧
    t.pc = s.pc + 2 ∧ RegsSameBut [x, vf] s t ∧ SameBut [.v, .pc] s t

/-- `8XY5` (R137): the difference modulo 256 in VX and no-borrow in VF; for X = F the difference is
final in table order and the flag with `flag_last` (the spec's decision D3). -/
def Obligations.SubtractWithNoBorrow : Prop :=
  (∀ p x y, decodeWord p (BitVec.ofNat 16 (0x8005 + Fin.val x * 256 + Fin.val y * 16)) =
    some (.sub x y)) ∧
  ∀ s x y, ∃ t, exec (.sub x y) s = .next t ∧
    (x ≠ vf ∨ s.params.vfDest = .tableOrder →
      (t.readV x).toNat = ((s.readV x).toNat + 256 - (s.readV y).toNat) % 256) ∧
    (x ≠ vf ∨ s.params.vfDest = .flagLast →
      (t.readV vf).toNat = if (s.readV x).toNat ≥ (s.readV y).toNat then 1 else 0) ∧
    t.pc = s.pc + 2 ∧ RegsSameBut [x, vf] s t ∧ SameBut [.v, .pc] s t

/-- `8XY6` (R138): half of VX, its low bit in VF; VY is not read (D19); X = F as D3 says. -/
def Obligations.ShiftRightByOne : Prop :=
  (∀ p x y, decodeWord p (BitVec.ofNat 16 (0x8006 + Fin.val x * 256 + Fin.val y * 16)) =
    some (.shr x y)) ∧
  ∀ s x y, ∃ t, exec (.shr x y) s = .next t ∧
    (x ≠ vf ∨ s.params.vfDest = .tableOrder → (t.readV x).toNat = (s.readV x).toNat / 2) ∧
    (x ≠ vf ∨ s.params.vfDest = .flagLast → (t.readV vf).toNat = (s.readV x).toNat % 2) ∧
    t.pc = s.pc + 2 ∧ RegsSameBut [x, vf] s t ∧ SameBut [.v, .pc] s t

/-- `8XY7` (R139): VY − VX modulo 256 in VX and no-borrow in VF; X = F as D3 says. -/
def Obligations.SubtractReversed : Prop :=
  (∀ p x y, decodeWord p (BitVec.ofNat 16 (0x8007 + Fin.val x * 256 + Fin.val y * 16)) =
    some (.subn x y)) ∧
  ∀ s x y, ∃ t, exec (.subn x y) s = .next t ∧
    (x ≠ vf ∨ s.params.vfDest = .tableOrder →
      (t.readV x).toNat = ((s.readV y).toNat + 256 - (s.readV x).toNat) % 256) ∧
    (x ≠ vf ∨ s.params.vfDest = .flagLast →
      (t.readV vf).toNat = if (s.readV y).toNat ≥ (s.readV x).toNat then 1 else 0) ∧
    t.pc = s.pc + 2 ∧ RegsSameBut [x, vf] s t ∧ SameBut [.v, .pc] s t

/-- `8XYE` (R140): twice VX modulo 256, its high bit in VF; VY is not read (D19); X = F as D3 says. -/
def Obligations.ShiftLeftByOne : Prop :=
  (∀ p x y, decodeWord p (BitVec.ofNat 16 (0x800E + Fin.val x * 256 + Fin.val y * 16)) =
    some (.shl x y)) ∧
  ∀ s x y, ∃ t, exec (.shl x y) s = .next t ∧
    (x ≠ vf ∨ s.params.vfDest = .tableOrder → (t.readV x).toNat = (s.readV x).toNat * 2 % 256) ∧
    (x ≠ vf ∨ s.params.vfDest = .flagLast → (t.readV vf).toNat = (s.readV x).toNat / 128) ∧
    t.pc = s.pc + 2 ∧ RegsSameBut [x, vf] s t ∧ SameBut [.v, .pc] s t

/-- `CXNN` (R141): NN AND the byte of a fresh draw, with no bit outside NN; the draw is a free value
(the spec's decision D23, log 4), or the byte a supplied list holds at the draw's number (log 21). -/
def Obligations.RandomMasked : Prop :=
  (∀ p x nn, decodeWord p (BitVec.ofNat 16 (0xC000 + Fin.val x * 256 + BitVec.toNat nn)) =
    some (.rnd x nn)) ∧
  ∀ s x nn, ∃ t, exec (.rnd x nn) s = .next t ∧
    (s.params.random = .free → t.readV x = nn &&& Config.randomByte s.draws) ∧
    (∀ bytes b, s.params.random = .supplied bytes → bytes[s.draws]? = some b → t.readV x = nn &&& b) ∧
    (∀ b < 8, nn.getLsbD b = false → (t.readV x).getLsbD b = false) ∧
    t.draws = s.draws + 1 ∧ t.pc = s.pc + 2 ∧ RegsSameBut [x] s t ∧ SameBut [.v, .draws, .pc] s t

/-! ## The index register and memory -/

/-- `ANNN` (R150). -/
def Obligations.LoadIndex : Prop :=
  (∀ p nnn, decodeWord p (BitVec.ofNat 16 (0xA000 + BitVec.toNat nnn)) = some (.ldI nnn)) ∧
  ∀ s nnn, ∃ t, exec (.ldI nnn) s = .next t ∧ t.i.toNat = nnn.toNat ∧ t.pc = s.pc + 2 ∧
    SameBut [.i, .pc] s t

/-- `FX1E` (R151): the sum modulo 65536, no flag (the wrap is the spec's decision D7). -/
def Obligations.AddToIndex : Prop :=
  (∀ p x, decodeWord p (BitVec.ofNat 16 (0xF01E + Fin.val x * 256)) = some (.addIVx x)) ∧
  ∀ s x, ∃ t, exec (.addIVx x) s = .next t ∧
    t.i.toNat = (s.i.toNat + (s.readV x).toNat) % 65536 ∧ t.pc = s.pc + 2 ∧ SameBut [.i, .pc] s t

/-- `FX29` (R152): five times the low nibble of VX. -/
def Obligations.PointAtGlyph : Prop :=
  (∀ p x, decodeWord p (BitVec.ofNat 16 (0xF029 + Fin.val x * 256)) = some (.ldFVx x)) ∧
  ∀ s x, ∃ t, exec (.ldFVx x) s = .next t ∧
    t.i.toNat = (s.readV x).toNat % 16 * 5 ∧ t.pc = s.pc + 2 ∧ SameBut [.i, .pc] s t

/-- `FX33` (R153): the three decimal digits at I, I + 1, I + 2 and no other byte, below 0x200 too (the
spec's decision D17); past 0xFFF it raises and writes nothing (D8, D9). -/
def Obligations.StoreDecimalDigits : Prop :=
  (∀ p x, decodeWord p (BitVec.ofNat 16 (0xF033 + Fin.val x * 256)) = some (.ldBVx x)) ∧
  (∀ s x, s.i.toNat + 2 ≤ 0xFFF → ∃ t, exec (.ldBVx x) s = .next t ∧
    (Memory.read t.mem s.i.toNat).toNat = (s.readV x).toNat / 100 ∧
    (Memory.read t.mem (s.i.toNat + 1)).toNat = (s.readV x).toNat / 10 % 10 ∧
    (Memory.read t.mem (s.i.toNat + 2)).toNat = (s.readV x).toNat % 10 ∧
    (∀ a, a < s.i.toNat ∨ s.i.toNat + 3 ≤ a → Memory.read t.mem a = Memory.read s.mem a) ∧
    t.pc = s.pc + 2 ∧ SameBut [.mem, .pc] s t) ∧
  ∀ s x, s.i.toNat + 2 > 0xFFF →
    exec (.ldBVx x) s = .next (s.raise (.memoryOutOfRange s.pc s.opcode s.i 3))

/-- `FX55` (R154): V0..VX at I upwards and no other byte, below 0x200 too (the spec's decision D17), I
unchanged (D18); past 0xFFF it raises and writes nothing (D8, D9). -/
def Obligations.StoreRegisterBlock : Prop :=
  (∀ p x, decodeWord p (BitVec.ofNat 16 (0xF055 + Fin.val x * 256)) = some (.ldMIVx x)) ∧
  (∀ s x, s.i.toNat + Fin.val x ≤ 0xFFF → ∃ t, exec (.ldMIVx x) s = .next t ∧
    (∀ k : Reg, k ≤ x → Memory.read t.mem (s.i.toNat + k.val) = s.readV k) ∧
    (∀ a, a < s.i.toNat ∨ s.i.toNat + x.val + 1 ≤ a → Memory.read t.mem a = Memory.read s.mem a) ∧
    t.pc = s.pc + 2 ∧ SameBut [.mem, .pc] s t) ∧
  ∀ s x, s.i.toNat + Fin.val x > 0xFFF →
    exec (.ldMIVx x) s = .next (s.raise (.memoryOutOfRange s.pc s.opcode s.i (x.val + 1)))

/-- `FX65` (R155): V0..VX from I upwards, the registers above VX and I unchanged (D18); past 0xFFF it
raises and writes no register. -/
def Obligations.LoadRegisterBlock : Prop :=
  (∀ p x, decodeWord p (BitVec.ofNat 16 (0xF065 + Fin.val x * 256)) = some (.ldVxMI x)) ∧
  (∀ s x, s.i.toNat + Fin.val x ≤ 0xFFF → ∃ t, exec (.ldVxMI x) s = .next t ∧
    (∀ k : Reg, k ≤ x → t.readV k = Memory.read s.mem (s.i.toNat + k.val)) ∧
    (∀ k : Reg, x < k → t.readV k = s.readV k) ∧
    t.pc = s.pc + 2 ∧ SameBut [.v, .pc] s t) ∧
  ∀ s x, s.i.toNat + Fin.val x > 0xFFF →
    exec (.ldVxMI x) s = .next (s.raise (.memoryOutOfRange s.pc s.opcode s.i (x.val + 1)))

/-! ## Keys and timers -/

/-- `EX9E` and `EXA1` (R161, R162): the key is the low nibble of VX; for the same register and latch
exactly one of the two skips. -/
def Obligations.SkipOnKey : Prop :=
  (∀ p x, decodeWord p (BitVec.ofNat 16 (0xE09E + Fin.val x * 256)) = some (.skp x)) ∧
  (∀ p x, decodeWord p (BitVec.ofNat 16 (0xE0A1 + Fin.val x * 256)) = some (.sknp x)) ∧
  (∀ (s : State) (x : Reg) (k : Key), k.val = (s.readV x).toNat % 16 →
    ∃ t, exec (.skp x) s = .next t ∧
      (t.pc = if s.key[k] = true then s.pc + 4 else s.pc + 2) ∧ SameBut [.pc] s t) ∧
  (∀ (s : State) (x : Reg) (k : Key), k.val = (s.readV x).toNat % 16 →
    ∃ t, exec (.sknp x) s = .next t ∧
      (t.pc = if s.key[k] = true then s.pc + 2 else s.pc + 4) ∧ SameBut [.pc] s t) ∧
  ∀ s x, ∃ t u, exec (.skp x) s = .next t ∧ exec (.sknp x) s = .next u ∧
    (t.pc = s.pc + 4 ↔ u.pc ≠ s.pc + 4)

/-- `FX07` (R163): VX is DT as it is before the step's tick, and DT at the end of the step has ticked
once more; right after `FX15` with a nonzero VX it reads one less than that VX. -/
def Obligations.ReadDelayTimer : Prop :=
  (∀ p x, decodeWord p (BitVec.ofNat 16 (0xF007 + Fin.val x * 256)) = some (.ldVxDT x)) ∧
  (∀ s x, ∃ t, exec (.ldVxDT x) s = .next t ∧ t.readV x = s.dt ∧ t.pc = s.pc + 2 ∧
    RegsSameBut [x] s t ∧ SameBut [.v, .pc] s t) ∧
  (∀ s x w, Fetches s (.ldVxDT x) w → s.params.timerMode = .perStep →
    ∃ u, step s = .next u ∧ u.readV x = s.dt ∧ u.dt.toNat = s.dt.toNat - 1) ∧
  ∀ s t x y w w', Fetches s (.ldDTVx x) w → s.params.timerMode = .perStep →
    (s.readV x).toNat ≥ 1 → step s = .next t → Fetches t (.ldVxDT y) w' →
    ∃ u, step t = .next u ∧ (u.readV y).toNat = (s.readV x).toNat - 1

/-- `FX0A` (R164): with no key pressed PC stays and nothing changes; otherwise VX is the least pressed
key and PC advances; a waiting step still ticks. -/
def Obligations.WaitForKey : Prop :=
  (∀ p x, decodeWord p (BitVec.ofNat 16 (0xF00A + Fin.val x * 256)) = some (.ldVxK x)) ∧
  (∀ s x, (∀ k : Key, s.key[k] = false) →
    ∃ t, exec (.ldVxK x) s = .next t ∧ SameBut [] s t) ∧
  (∀ (s : State) (x : Reg) (k : Key), s.key[k] = true → (∀ j : Key, j < k → s.key[j] = false) →
    ∃ t, exec (.ldVxK x) s = .next t ∧ (t.readV x).toNat = k.val ∧ t.pc = s.pc + 2 ∧
      RegsSameBut [x] s t ∧ SameBut [.v, .pc] s t) ∧
  ∀ s x w, Fetches s (.ldVxK x) w → (∀ k : Key, s.key[k] = false) → s.params.timerMode = .perStep →
    ∃ u, step s = .next u ∧ u.pc = s.pc ∧ u.dt.toNat = s.dt.toNat - 1 ∧
      u.st.toNat = s.st.toNat - 1 ∧ u.v = s.v

/-- `FX15` (R165): DT is VX, and at the end of the step max(VX − 1, 0) under `per_step`. -/
def Obligations.SetDelayTimer : Prop :=
  (∀ p x, decodeWord p (BitVec.ofNat 16 (0xF015 + Fin.val x * 256)) = some (.ldDTVx x)) ∧
  (∀ s x, ∃ t, exec (.ldDTVx x) s = .next t ∧ t.dt = s.readV x ∧ t.pc = s.pc + 2 ∧
    SameBut [.dt, .pc] s t) ∧
  ∀ s x w, Fetches s (.ldDTVx x) w → s.params.timerMode = .perStep →
    ∃ u, step s = .next u ∧ u.dt.toNat = (s.readV x).toNat - 1

/-- `FX18` (R166): ST is VX, and under `per_step` the same step's tick sounds the tone for a nonzero
value and decrements it. -/
def Obligations.SetSoundTimer : Prop :=
  (∀ p x, decodeWord p (BitVec.ofNat 16 (0xF018 + Fin.val x * 256)) = some (.ldSTVx x)) ∧
  (∀ s x, ∃ t, exec (.ldSTVx x) s = .next t ∧ t.st = s.readV x ∧ t.pc = s.pc + 2 ∧
    SameBut [.st, .pc] s t) ∧
  ∀ s x w, Fetches s (.ldSTVx x) w → s.params.timerMode = .perStep →
    ∃ u, step s = .next u ∧ u.st.toNat = (s.readV x).toNat - 1 ∧
      (u.tone = true ↔ (s.readV x).toNat ≠ 0)

/-! ## Reset and the host operations -/

/-- The state after reset (R37): font below 0x050 (the parameter's default, log 3) and 0 above, PC at
0x200, everything else 0, empty or released; FB, DRAW and TONE 0 are the spec's decision D14, HALTED and
CAUSE its decision D9. -/
def Obligations.ResetState : Prop :=
  (∀ a, Memory.read State.reset.mem a = if h : a < 80 then defaultFont[a] else 0) ∧
  (∀ k : Reg, State.reset.readV k = 0) ∧ State.reset.i = 0 ∧ State.reset.pc = 0x200 ∧
  (∀ k : Fin 16, State.reset.stack[k] = 0) ∧ State.reset.sp.val = 0 ∧
  State.reset.dt = 0 ∧ State.reset.st = 0 ∧
  (∀ x y, Frame.pixel State.reset.fb x y = false) ∧ State.reset.draw = false ∧
  (∀ k : Key, State.reset.pressed k = false) ∧ State.reset.halted = false ∧
  State.reset.cause = .none ∧ State.reset.tone = false ∧ State.reset.opcode = none

/-- `Initialize` from any state, the halted one among them (R250, R251; D34): the machine's own font
table and zeros, and the reset value of everything else but, under `FB_RESET = any`, the framebuffer
and DRAW (log 5); the parameters and the count of draws are the model's (log 16, log 21). -/
def Obligations.InitializeFromAnyState : Prop :=
  ∀ s : State, ∃ t, perform .init s = .next t ∧
    (∀ a, Memory.read t.mem a = if h : a < 80 then s.params.font[a] else 0) ∧
    t.params = s.params ∧
    SameBut [.params, .mem, .fb, .draw, .draws] State.reset t ∧
    (s.params.fbReset = .zero → t.draw = false ∧ ∀ x y, Frame.pixel t.fb x y = false)

/-- `LoadProgram` (R252, R207, R253): the bytes at 0x200 upwards and nothing else changed but the
report output (log 8); an unreadable source or an image over 3584 bytes raises LoadError, with TONE 0,
the report and memory unchanged (D21, D22, log 11); after the first Step, of a halted core too, it is
refused (D2, log 9). Before the first Step a second load, and a load into a core halted by a failed one,
is a load like the first: the model's choice (log 10). -/
def Obligations.LoadProgramOutcomes : Prop :=
  (∀ (s : State) (bytes : List Byte), s.stepped = false → bytes.length ≤ 3584 →
    ∃ t, perform (.loadProgram (some bytes)) s = .next t ∧
      (∀ j b, bytes[j]? = some b → Memory.read t.mem (0x200 + j) = b) ∧
      (∀ a, a < 0x200 ∨ 0x200 + bytes.length ≤ a → Memory.read t.mem a = Memory.read s.mem a) ∧
      SameBut [.mem, .report] s t) ∧
  (∀ (s : State) (bytes : List Byte), s.stepped = false → bytes.length > 3584 →
    ∃ t, perform (.loadProgram (some bytes)) s = .next t ∧ t.halted = true ∧
      t.cause = .loadError (.tooLong bytes.length) ∧ t.tone = false ∧
      t.report = some (.fatal t.cause) ∧
      SameBut [.halted, .cause, .tone, .report] s t) ∧
  (∀ s : State, s.stepped = false →
    ∃ t, perform (.loadProgram none) s = .next t ∧ t.halted = true ∧
      t.cause = .loadError .unreadable ∧ t.tone = false ∧
      t.report = some (.fatal t.cause) ∧ SameBut [.halted, .cause, .tone, .report] s t) ∧
  (∀ (s : State) (source : Option (List Byte)), s.stepped = true →
    perform (.loadProgram source) s = .refused .lateLoad) ∧
  ∀ s t : State, step s = .next t → t.stepped = true

/-- `SetKeys`, `AckFrame`, `TimerTick` and the reads (R30, R31, R40, R169, R209): the whole latch is
replaced, DRAW is cleared, a tick happens only in `external_tick` mode while not halted, and a read
changes nothing. -/
def Obligations.HostLatchOperations : Prop :=
  (∀ s keys, ∃ t, perform (.setKeys keys) s = .next t ∧ (∀ k : Key, t.pressed k = keys[k]) ∧
    SameBut [.key] s t) ∧
  (∀ s, ∃ t, perform .ackFrame s = .next t ∧ t.draw = false ∧ SameBut [.draw] s t) ∧
  (∀ s : State, s.halted = false → s.params.timerMode = .externalTick →
    ∃ t, perform .timerTick s = .next t ∧ t.dt.toNat = s.dt.toNat - 1 ∧
      t.st.toNat = s.st.toNat - 1 ∧ (t.tone = true ↔ s.st.toNat ≠ 0) ∧
      SameBut [.dt, .st, .tone] s t) ∧
  (∀ s : State, s.halted = true ∨ s.params.timerMode = .perStep →
    ∃ t, perform .timerTick s = .next t ∧ SameBut [] s t) ∧
  (∀ s, ∃ t, perform .readOutputs s = .next t ∧ SameBut [] s t) ∧
  ∀ s, ∃ t, perform .dumpMemory s = .next t ∧ SameBut [] s t ∧
    ∀ a, a < 4096 → (State.dumpMemory s)[a]? = some (Memory.read s.mem a)

/-! ## Runs -/

/-- The invariant at every state of every run: from a launch state, with any host operations between the
steps (R254, R260), after any number of steps. It rests on what `StepKeepsInvariant` names (D7, D9, D13,
log 7, log 14). -/
def Obligations.RunsKeepInvariant : Prop :=
  ∀ (rounds : List (List HostOp)) (last : List HostOp) (s t : State),
    Launch s → Run rounds last s t → Inv t

/-- Only `Initialize` clears HALTED: no other host operation does, a step and a load among them, and a
halted core's cause changes by no operation but `Initialize` and `LoadProgram` (R209, R210; D9, log 10). -/
def Obligations.OnlyInitializeClearsHalted : Prop :=
  ∀ (op : HostOp) (s t : State), s.halted = true → op ≠ .init → perform op s = .next t →
    t.halted = true ∧ ((∀ source, op ≠ .loadProgram source) → t.cause = s.cause)
end

