-- ==== Sys2Proof/Laws/Decode.lean ====
section
/-! SUPPORT. The fields of the encoder's words and of byte pairs, so that no proof about decoding
computes with words again. -/

namespace Sys2Proof

theorem toNat_wordNNN {g : Nat} (hg : g < 16) (nnn : Addr) :
    (wordNNN g nnn).toNat = g * 4096 + nnn.toNat := by
  have := nnn.isLt
  rw [wordNNN, BitVec.toNat_ofNat, Nat.mod_eq_of_lt (by omega)]

theorem toNat_wordXNN {g : Nat} (hg : g < 16) (x : Reg) (nn : Byte) :
    (wordXNN g x nn).toNat = g * 4096 + x.val * 256 + nn.toNat := by
  have := nn.isLt
  have := x.isLt
  rw [wordXNN, BitVec.toNat_ofNat, Nat.mod_eq_of_lt (by omega)]

theorem toNat_wordXYN {g : Nat} (hg : g < 16) (x y : Reg) (n : Nibble) :
    (wordXYN g x y n).toNat = g * 4096 + x.val * 256 + y.val * 16 + n.toNat := by
  have := n.isLt
  have := x.isLt
  have := y.isLt
  rw [wordXYN, BitVec.toNat_ofNat, Nat.mod_eq_of_lt (by omega)]

theorem fieldG_wordNNN {g : Nat} (hg : g < 16) (nnn : Addr) : fieldG (wordNNN g nnn) = g := by
  have := nnn.isLt
  rw [fieldG, toNat_wordNNN hg]; omega

theorem fieldNNN_wordNNN {g : Nat} (hg : g < 16) (nnn : Addr) : fieldNNN (wordNNN g nnn) = nnn := by
  have := nnn.isLt
  apply BitVec.eq_of_toNat_eq
  rw [fieldNNN, BitVec.toNat_ofNat, toNat_wordNNN hg]; omega

theorem fieldG_wordXNN {g : Nat} (hg : g < 16) (x : Reg) (nn : Byte) : fieldG (wordXNN g x nn) = g := by
  have := nn.isLt
  have := x.isLt
  rw [fieldG, toNat_wordXNN hg]; omega

theorem fieldX_wordXNN {g : Nat} (hg : g < 16) (x : Reg) (nn : Byte) : fieldX (wordXNN g x nn) = x := by
  have := nn.isLt
  have := x.isLt
  apply Fin.ext
  simp only [fieldX, toNat_wordXNN hg]; omega

theorem fieldNN_wordXNN {g : Nat} (hg : g < 16) (x : Reg) (nn : Byte) : fieldNN (wordXNN g x nn) = nn := by
  have := nn.isLt
  have := x.isLt
  apply BitVec.eq_of_toNat_eq
  rw [fieldNN, BitVec.toNat_ofNat, toNat_wordXNN hg]; omega

theorem fieldG_wordXYN {g : Nat} (hg : g < 16) (x y : Reg) (n : Nibble) : fieldG (wordXYN g x y n) = g := by
  have := n.isLt
  have := x.isLt
  have := y.isLt
  rw [fieldG, toNat_wordXYN hg]; omega

theorem fieldX_wordXYN {g : Nat} (hg : g < 16) (x y : Reg) (n : Nibble) : fieldX (wordXYN g x y n) = x := by
  have := n.isLt
  have := x.isLt
  have := y.isLt
  apply Fin.ext
  simp only [fieldX, toNat_wordXYN hg]; omega

theorem fieldY_wordXYN {g : Nat} (hg : g < 16) (x y : Reg) (n : Nibble) : fieldY (wordXYN g x y n) = y := by
  have := n.isLt
  have := x.isLt
  have := y.isLt
  apply Fin.ext
  simp only [fieldY, toNat_wordXYN hg]; omega

theorem fieldN_wordXYN {g : Nat} (hg : g < 16) (x y : Reg) (n : Nibble) : fieldN (wordXYN g x y n) = n := by
  have := n.isLt
  have := x.isLt
  have := y.isLt
  apply BitVec.eq_of_toNat_eq
  rw [fieldN, BitVec.toNat_ofNat, toNat_wordXYN hg]; omega

/-- A word laid out big-endian and read back (R54). -/
@[simp] theorem concatBytes_high_low (w : Word) : concatBytes (highByte w) (lowByte w) = w := by
  have := w.isLt
  apply BitVec.eq_of_toNat_eq
  simp only [concatBytes, highByte, lowByte, BitVec.toNat_ofNat]; omega

@[simp] theorem highByte_concatBytes (h l : Byte) : highByte (concatBytes h l) = h := by
  have := h.isLt
  have := l.isLt
  apply BitVec.eq_of_toNat_eq
  simp only [concatBytes, highByte, BitVec.toNat_ofNat]; omega

@[simp] theorem lowByte_concatBytes (h l : Byte) : lowByte (concatBytes h l) = l := by
  have := h.isLt
  have := l.isLt
  apply BitVec.eq_of_toNat_eq
  simp only [concatBytes, lowByte, BitVec.toNat_ofNat]; omega

end Sys2Proof
end

