-- ==== Sys2Proof/Laws/Memory.lean ====
section
/-! SUPPORT. The laws of memory: read after write, frames, and the canonical form kept by every
operation. -/

namespace Sys2Proof.Machine

/-! The fixed parameters as numerals (R6), for the arithmetic procedures. -/

theorem memSize_eq : memSize = 4096 := rfl
theorem memTop_eq : memTop = 4095 := rfl
theorem programStart_eq : programStart = 512 := rfl
theorem programMax_eq : programMax = 3584 := rfl
theorem glyphBytes_eq : glyphBytes = 5 := rfl
theorem fontBase_eq : fontBase = 0 := rfl

theorem Memory.wf_nil : Memory.wf [] := by simp [Memory.wf]

/-- Reset memory is in canonical form. -/
theorem Memory.wf_reset : Memory.wf State.reset.mem := Memory.wf_nil

theorem Memory.read_erase (m : Memory) (a b : Nat) :
    Memory.read (Memory.erase m a) b = if b = a then unlistedByte a else Memory.read m b := by
  induction m with
  | nil => by_cases h : b = a <;> simp [Memory.erase, Memory.read, h]
  | cons c rest ih =>
    rw [Memory.erase] at ih ⊢
    by_cases hca : c.1 = a
    · rw [List.filter_cons_of_neg (by simp [hca]), ih]
      by_cases hb : b = a
      · simp [hb]
      · have : c.1 ≠ b := by rw [hca]; exact Ne.symm hb
        simp [hb, Memory.read, this]
    · rw [List.filter_cons_of_pos (by simp [hca])]
      by_cases hcb : c.1 = b
      · have : b ≠ a := hcb ▸ hca
        simp [Memory.read, hcb, this]
      · simp [Memory.read, hcb, ih]

theorem Memory.read_insert (m : Memory) (a b : Nat) (v : Byte) (h : ∀ c ∈ m, c.1 ≠ a) :
    Memory.read (Memory.insert m a v) b = if b = a then v else Memory.read m b := by
  induction m with
  | nil =>
    by_cases hb : b = a
    · simp [Memory.insert, Memory.read, hb]
    · simp [Memory.insert, Memory.read, hb, Ne.symm hb]
  | cons c rest ih =>
    have hc : c.1 ≠ a := h c (by simp)
    have hr : ∀ d ∈ rest, d.1 ≠ a := fun d hd => h d (List.mem_cons_of_mem _ hd)
    rw [Memory.insert]
    split
    · by_cases hb : b = a
      · simp [Memory.read, hb]
      · simp [Memory.read, hb, Ne.symm hb]
    · by_cases hcb : c.1 = b
      · have : b ≠ a := hcb ▸ hc
        simp [Memory.read, hcb, this]
      · simp [Memory.read, hcb, ih hr]

theorem Memory.mem_erase {m : Memory} {a : Nat} {c : Host.Cell} (h : c ∈ Memory.erase m a) :
    c ∈ m ∧ c.1 ≠ a := by
  simpa [Memory.erase] using h

/-- READ AFTER WRITE (R59): the byte written at an address of the space, every other byte as before. -/
theorem Memory.read_write (m : Memory) (a b : Nat) (v : Byte) (ha : a < memSize) :
    Memory.read (Memory.write m a v) b = if b = a then v else Memory.read m b := by
  rw [Memory.write, if_pos ha]
  split
  · next hv => rw [Memory.read_erase]; simp [hv]
  · rw [Memory.read_insert _ _ _ _ fun c hc => (Memory.mem_erase hc).2, Memory.read_erase]
    split <;> simp_all

theorem Memory.write_of_ge (m : Memory) (a : Nat) (v : Byte) (ha : memSize ≤ a) :
    Memory.write m a v = m := by
  rw [Memory.write, if_neg (by omega)]

theorem Memory.read_write_of_ne (m : Memory) {a b : Nat} (v : Byte) (h : b ≠ a) :
    Memory.read (Memory.write m a v) b = Memory.read m b := by
  by_cases ha : a < memSize
  · rw [Memory.read_write m a b v ha, if_neg h]
  · rw [Memory.write_of_ge m a v (by omega)]

/-- A block of bytes written: byte k of the list at `a + k`, every other address as before. -/
theorem Memory.read_writeAll (m : Memory) (a b : Nat) (bs : List Byte) (h : a + bs.length ≤ memSize) :
    Memory.read (Memory.writeAll m a bs) b =
      if a ≤ b then (bs[b - a]?).getD (Memory.read m b) else Memory.read m b := by
  induction bs generalizing m a with
  | nil => simp [Memory.writeAll]
  | cons v rest ih =>
    rw [List.length_cons] at h
    rw [Memory.writeAll, ih _ _ (by omega), Memory.read_write m a b v (by omega)]
    by_cases hab : a = b
    · subst hab; simp
    · by_cases hlt : a + 1 ≤ b
      · have h1 : b - a = (b - (a + 1)) + 1 := by omega
        have h2 : a ≤ b := by omega
        simp [hlt, h1, h2, Ne.symm hab]
      · have h2 : ¬ a ≤ b := by omega
        have h3 : ¬ a < b := by omega
        simp [h2, h3, Ne.symm hab]

/-- No byte outside the block written changes. -/
theorem Memory.read_writeAll_of_outside (m : Memory) (a b : Nat) (bs : List Byte)
    (h : b < a ∨ a + bs.length ≤ b) : Memory.read (Memory.writeAll m a bs) b = Memory.read m b := by
  induction bs generalizing m a with
  | nil => rfl
  | cons v rest ih =>
    rw [List.length_cons] at h
    rw [Memory.writeAll, ih _ _ (by omega), Memory.read_write_of_ne _ _ (by omega)]

theorem Memory.mem_insert {m : Memory} {a : Nat} {v : Byte} {c : Host.Cell} :
    c ∈ Memory.insert m a v ↔ c = (a, v) ∨ c ∈ m := by
  induction m with
  | nil => simp [Memory.insert]
  | cons d rest ih =>
    rw [Memory.insert]
    split
    · simp
    · simp only [List.mem_cons, ih]; tauto

theorem Memory.rising_insert {m : Memory} {a : Nat} {v : Byte}
    (hm : (m.map Prod.fst).Pairwise (· < ·)) (ha : ∀ c ∈ m, c.1 ≠ a) :
    ((Memory.insert m a v).map Prod.fst).Pairwise (· < ·) := by
  induction m with
  | nil => simp [Memory.insert]
  | cons d rest ih =>
    have hd : d.1 ≠ a := ha d (by simp)
    rw [List.map_cons, List.pairwise_cons] at hm
    rw [Memory.insert]
    split
    · next hlt =>
      rw [List.map_cons, List.map_cons, List.pairwise_cons, List.pairwise_cons]
      refine ⟨fun x hx => ?_, hm⟩
      rcases List.mem_cons.mp hx with rfl | hx
      · exact hlt
      · exact lt_trans hlt (hm.1 x hx)
    · next hge =>
      rw [List.map_cons, List.pairwise_cons]
      refine ⟨fun x hx => ?_, ih hm.2 fun c hc => ha c (List.mem_cons_of_mem _ hc)⟩
      obtain ⟨c, hc, rfl⟩ := List.mem_map.mp hx
      rcases Memory.mem_insert.mp hc with rfl | hc
      · have : d.1 < a := by omega
        exact this
      · exact hm.1 _ (List.mem_map_of_mem hc)

theorem Memory.wf_erase {m : Memory} (h : Memory.wf m) (a : Nat) : Memory.wf (Memory.erase m a) :=
  ⟨h.1.sublist (List.Sublist.map _ List.filter_sublist),
    fun c hc => h.2 c (Memory.mem_erase hc).1⟩

/-- A write keeps the canonical form. -/
theorem Memory.wf_write {m : Memory} (h : Memory.wf m) (a : Nat) (v : Byte) :
    Memory.wf (Memory.write m a v) := by
  rw [Memory.write]
  split
  · next ha =>
    split
    · exact Memory.wf_erase h a
    · next hv =>
      refine ⟨Memory.rising_insert (Memory.wf_erase h a).1 fun c hc => (Memory.mem_erase hc).2, ?_⟩
      intro c hc
      rcases Memory.mem_insert.mp hc with rfl | hc
      · exact ⟨ha, hv⟩
      · exact (Memory.wf_erase h a).2 c hc
  · exact h

/-- A block write keeps the canonical form. -/
theorem Memory.wf_writeAll {m : Memory} (h : Memory.wf m) (a : Nat) (bs : List Byte) :
    Memory.wf (Memory.writeAll m a bs) := by
  induction bs generalizing m a with
  | nil => exact h
  | cons v rest ih => exact ih (Memory.wf_write h a v) (a + 1)

@[simp] theorem Memory.readAll_length (m : Memory) (a n : Nat) : (Memory.readAll m a n).length = n := by
  induction n generalizing a with
  | zero => rfl
  | succ n ih => simp [Memory.readAll, ih]

/-- Byte k of a block read is the byte at `a + k`. -/
theorem Memory.getElem?_readAll (m : Memory) (a n k : Nat) :
    (Memory.readAll m a n)[k]? = if k < n then some (Memory.read m (a + k)) else none := by
  induction n generalizing a k with
  | zero => simp [Memory.readAll]
  | succ n ih =>
    cases k with
    | zero => simp [Memory.readAll]
    | succ k =>
      simp only [Memory.readAll, List.getElem?_cons_succ, ih, Nat.add_lt_add_iff_right]
      rw [show a + 1 + k = a + (k + 1) by omega]

/-- An access in range ends at or below 0xFFF, or moves no byte (R53). -/
theorem inRange_iff (b n : Nat) : inRange b n = true ↔ n = 0 ∨ b + n ≤ memSize := by
  simp only [inRange, memTop, memSize, Bool.or_eq_true, beq_iff_eq, decide_eq_true_eq]
  omega

end Sys2Proof.Machine
end

