-- ==== Sys2Proof/Laws/State.lean ====
section
/-! SUPPORT. One lemma per field of State per update, so that no proof unfolds a record update. -/

namespace Sys2Proof.Machine

variable (s : State)

/-! ### State.writeV -/

@[simp] theorem State.writeV_params (x : Reg) (b : Byte) : (s.writeV x b).params = s.params := rfl
@[simp] theorem State.writeV_mem (x : Reg) (b : Byte) : (s.writeV x b).mem = s.mem := rfl
@[simp] theorem State.writeV_v (x : Reg) (b : Byte) : (s.writeV x b).v = s.v.set x b := rfl
@[simp] theorem State.writeV_i (x : Reg) (b : Byte) : (s.writeV x b).i = s.i := rfl
@[simp] theorem State.writeV_pc (x : Reg) (b : Byte) : (s.writeV x b).pc = s.pc := rfl
@[simp] theorem State.writeV_stack (x : Reg) (b : Byte) : (s.writeV x b).stack = s.stack := rfl
@[simp] theorem State.writeV_sp (x : Reg) (b : Byte) : (s.writeV x b).sp = s.sp := rfl
@[simp] theorem State.writeV_dt (x : Reg) (b : Byte) : (s.writeV x b).dt = s.dt := rfl
@[simp] theorem State.writeV_st (x : Reg) (b : Byte) : (s.writeV x b).st = s.st := rfl
@[simp] theorem State.writeV_fb (x : Reg) (b : Byte) : (s.writeV x b).fb = s.fb := rfl
@[simp] theorem State.writeV_draw (x : Reg) (b : Byte) : (s.writeV x b).draw = s.draw := rfl
@[simp] theorem State.writeV_key (x : Reg) (b : Byte) : (s.writeV x b).key = s.key := rfl
@[simp] theorem State.writeV_halted (x : Reg) (b : Byte) : (s.writeV x b).halted = s.halted := rfl
@[simp] theorem State.writeV_cause (x : Reg) (b : Byte) : (s.writeV x b).cause = s.cause := rfl
@[simp] theorem State.writeV_tone (x : Reg) (b : Byte) : (s.writeV x b).tone = s.tone := rfl
@[simp] theorem State.writeV_opcode (x : Reg) (b : Byte) : (s.writeV x b).opcode = s.opcode := rfl
@[simp] theorem State.writeV_report (x : Reg) (b : Byte) : (s.writeV x b).report = s.report := rfl
@[simp] theorem State.writeV_stepped (x : Reg) (b : Byte) : (s.writeV x b).stepped = s.stepped := rfl
@[simp] theorem State.writeV_draws (x : Reg) (b : Byte) : (s.writeV x b).draws = s.draws := rfl

/-! ### State.advance -/

@[simp] theorem State.advance_params : (s.advance).params = s.params := rfl
@[simp] theorem State.advance_mem : (s.advance).mem = s.mem := rfl
@[simp] theorem State.advance_v : (s.advance).v = s.v := rfl
@[simp] theorem State.advance_i : (s.advance).i = s.i := rfl
@[simp] theorem State.advance_pc : (s.advance).pc = s.pc + 2 := rfl
@[simp] theorem State.advance_stack : (s.advance).stack = s.stack := rfl
@[simp] theorem State.advance_sp : (s.advance).sp = s.sp := rfl
@[simp] theorem State.advance_dt : (s.advance).dt = s.dt := rfl
@[simp] theorem State.advance_st : (s.advance).st = s.st := rfl
@[simp] theorem State.advance_fb : (s.advance).fb = s.fb := rfl
@[simp] theorem State.advance_draw : (s.advance).draw = s.draw := rfl
@[simp] theorem State.advance_key : (s.advance).key = s.key := rfl
@[simp] theorem State.advance_halted : (s.advance).halted = s.halted := rfl
@[simp] theorem State.advance_cause : (s.advance).cause = s.cause := rfl
@[simp] theorem State.advance_tone : (s.advance).tone = s.tone := rfl
@[simp] theorem State.advance_opcode : (s.advance).opcode = s.opcode := rfl
@[simp] theorem State.advance_report : (s.advance).report = s.report := rfl
@[simp] theorem State.advance_stepped : (s.advance).stepped = s.stepped := rfl
@[simp] theorem State.advance_draws : (s.advance).draws = s.draws := rfl

/-! ### State.skipIf -/

@[simp] theorem State.skipIf_params (c : Bool) : (s.skipIf c).params = s.params := rfl
@[simp] theorem State.skipIf_mem (c : Bool) : (s.skipIf c).mem = s.mem := rfl
@[simp] theorem State.skipIf_v (c : Bool) : (s.skipIf c).v = s.v := rfl
@[simp] theorem State.skipIf_i (c : Bool) : (s.skipIf c).i = s.i := rfl
@[simp] theorem State.skipIf_pc (c : Bool) : (s.skipIf c).pc = (if c then s.pc + 4 else s.pc + 2) := rfl
@[simp] theorem State.skipIf_stack (c : Bool) : (s.skipIf c).stack = s.stack := rfl
@[simp] theorem State.skipIf_sp (c : Bool) : (s.skipIf c).sp = s.sp := rfl
@[simp] theorem State.skipIf_dt (c : Bool) : (s.skipIf c).dt = s.dt := rfl
@[simp] theorem State.skipIf_st (c : Bool) : (s.skipIf c).st = s.st := rfl
@[simp] theorem State.skipIf_fb (c : Bool) : (s.skipIf c).fb = s.fb := rfl
@[simp] theorem State.skipIf_draw (c : Bool) : (s.skipIf c).draw = s.draw := rfl
@[simp] theorem State.skipIf_key (c : Bool) : (s.skipIf c).key = s.key := rfl
@[simp] theorem State.skipIf_halted (c : Bool) : (s.skipIf c).halted = s.halted := rfl
@[simp] theorem State.skipIf_cause (c : Bool) : (s.skipIf c).cause = s.cause := rfl
@[simp] theorem State.skipIf_tone (c : Bool) : (s.skipIf c).tone = s.tone := rfl
@[simp] theorem State.skipIf_opcode (c : Bool) : (s.skipIf c).opcode = s.opcode := rfl
@[simp] theorem State.skipIf_report (c : Bool) : (s.skipIf c).report = s.report := rfl
@[simp] theorem State.skipIf_stepped (c : Bool) : (s.skipIf c).stepped = s.stepped := rfl
@[simp] theorem State.skipIf_draws (c : Bool) : (s.skipIf c).draws = s.draws := rfl

/-! ### State.goto -/

@[simp] theorem State.goto_params (w : Word) : (s.goto w).params = s.params := rfl
@[simp] theorem State.goto_mem (w : Word) : (s.goto w).mem = s.mem := rfl
@[simp] theorem State.goto_v (w : Word) : (s.goto w).v = s.v := rfl
@[simp] theorem State.goto_i (w : Word) : (s.goto w).i = s.i := rfl
@[simp] theorem State.goto_pc (w : Word) : (s.goto w).pc = w := rfl
@[simp] theorem State.goto_stack (w : Word) : (s.goto w).stack = s.stack := rfl
@[simp] theorem State.goto_sp (w : Word) : (s.goto w).sp = s.sp := rfl
@[simp] theorem State.goto_dt (w : Word) : (s.goto w).dt = s.dt := rfl
@[simp] theorem State.goto_st (w : Word) : (s.goto w).st = s.st := rfl
@[simp] theorem State.goto_fb (w : Word) : (s.goto w).fb = s.fb := rfl
@[simp] theorem State.goto_draw (w : Word) : (s.goto w).draw = s.draw := rfl
@[simp] theorem State.goto_key (w : Word) : (s.goto w).key = s.key := rfl
@[simp] theorem State.goto_halted (w : Word) : (s.goto w).halted = s.halted := rfl
@[simp] theorem State.goto_cause (w : Word) : (s.goto w).cause = s.cause := rfl
@[simp] theorem State.goto_tone (w : Word) : (s.goto w).tone = s.tone := rfl
@[simp] theorem State.goto_opcode (w : Word) : (s.goto w).opcode = s.opcode := rfl
@[simp] theorem State.goto_report (w : Word) : (s.goto w).report = s.report := rfl
@[simp] theorem State.goto_stepped (w : Word) : (s.goto w).stepped = s.stepped := rfl
@[simp] theorem State.goto_draws (w : Word) : (s.goto w).draws = s.draws := rfl

/-! ### State.raise -/

@[simp] theorem State.raise_params (c : Cause) : (s.raise c).params = s.params := rfl
@[simp] theorem State.raise_mem (c : Cause) : (s.raise c).mem = s.mem := rfl
@[simp] theorem State.raise_v (c : Cause) : (s.raise c).v = s.v := rfl
@[simp] theorem State.raise_i (c : Cause) : (s.raise c).i = s.i := rfl
@[simp] theorem State.raise_pc (c : Cause) : (s.raise c).pc = s.pc := rfl
@[simp] theorem State.raise_stack (c : Cause) : (s.raise c).stack = s.stack := rfl
@[simp] theorem State.raise_sp (c : Cause) : (s.raise c).sp = s.sp := rfl
@[simp] theorem State.raise_dt (c : Cause) : (s.raise c).dt = s.dt := rfl
@[simp] theorem State.raise_st (c : Cause) : (s.raise c).st = s.st := rfl
@[simp] theorem State.raise_fb (c : Cause) : (s.raise c).fb = s.fb := rfl
@[simp] theorem State.raise_draw (c : Cause) : (s.raise c).draw = s.draw := rfl
@[simp] theorem State.raise_key (c : Cause) : (s.raise c).key = s.key := rfl
@[simp] theorem State.raise_halted (c : Cause) : (s.raise c).halted = true := rfl
@[simp] theorem State.raise_cause (c : Cause) : (s.raise c).cause = c := rfl
@[simp] theorem State.raise_tone (c : Cause) : (s.raise c).tone = false := rfl
@[simp] theorem State.raise_opcode (c : Cause) : (s.raise c).opcode = s.opcode := rfl
@[simp] theorem State.raise_report (c : Cause) : (s.raise c).report = some (.fatal c) := rfl
@[simp] theorem State.raise_stepped (c : Cause) : (s.raise c).stepped = s.stepped := rfl
@[simp] theorem State.raise_draws (c : Cause) : (s.raise c).draws = s.draws := rfl

/-! ### State.tick -/

@[simp] theorem State.tick_params : (s.tick).params = s.params := rfl
@[simp] theorem State.tick_mem : (s.tick).mem = s.mem := rfl
@[simp] theorem State.tick_v : (s.tick).v = s.v := rfl
@[simp] theorem State.tick_i : (s.tick).i = s.i := rfl
@[simp] theorem State.tick_pc : (s.tick).pc = s.pc := rfl
@[simp] theorem State.tick_stack : (s.tick).stack = s.stack := rfl
@[simp] theorem State.tick_sp : (s.tick).sp = s.sp := rfl
@[simp] theorem State.tick_dt : (s.tick).dt = (if s.dt = 0 then 0 else s.dt - 1) := rfl
@[simp] theorem State.tick_st : (s.tick).st = (if s.st = 0 then 0 else s.st - 1) := rfl
@[simp] theorem State.tick_fb : (s.tick).fb = s.fb := rfl
@[simp] theorem State.tick_draw : (s.tick).draw = s.draw := rfl
@[simp] theorem State.tick_key : (s.tick).key = s.key := rfl
@[simp] theorem State.tick_halted : (s.tick).halted = s.halted := rfl
@[simp] theorem State.tick_cause : (s.tick).cause = s.cause := rfl
@[simp] theorem State.tick_tone : (s.tick).tone = decide (s.st ≠ 0) := rfl
@[simp] theorem State.tick_opcode : (s.tick).opcode = s.opcode := rfl
@[simp] theorem State.tick_report : (s.tick).report = s.report := rfl
@[simp] theorem State.tick_stepped : (s.tick).stepped = s.stepped := rfl
@[simp] theorem State.tick_draws : (s.tick).draws = s.draws := rfl

/-! ### State.begin -/

@[simp] theorem State.begin_params : (s.begin).params = s.params := rfl
@[simp] theorem State.begin_mem : (s.begin).mem = s.mem := rfl
@[simp] theorem State.begin_v : (s.begin).v = s.v := rfl
@[simp] theorem State.begin_i : (s.begin).i = s.i := rfl
@[simp] theorem State.begin_pc : (s.begin).pc = s.pc := rfl
@[simp] theorem State.begin_stack : (s.begin).stack = s.stack := rfl
@[simp] theorem State.begin_sp : (s.begin).sp = s.sp := rfl
@[simp] theorem State.begin_dt : (s.begin).dt = s.dt := rfl
@[simp] theorem State.begin_st : (s.begin).st = s.st := rfl
@[simp] theorem State.begin_fb : (s.begin).fb = s.fb := rfl
@[simp] theorem State.begin_draw : (s.begin).draw = s.draw := rfl
@[simp] theorem State.begin_key : (s.begin).key = s.key := rfl
@[simp] theorem State.begin_halted : (s.begin).halted = s.halted := rfl
@[simp] theorem State.begin_cause : (s.begin).cause = s.cause := rfl
@[simp] theorem State.begin_tone : (s.begin).tone = s.tone := rfl
@[simp] theorem State.begin_opcode : (s.begin).opcode = s.opcode := rfl
@[simp] theorem State.begin_report : (s.begin).report = none := rfl
@[simp] theorem State.begin_stepped : (s.begin).stepped = s.stepped := rfl
@[simp] theorem State.begin_draws : (s.begin).draws = s.draws := rfl

/-! ### State.hold -/

@[simp] theorem State.hold_params (w : Word) : (s.hold w).params = s.params := rfl
@[simp] theorem State.hold_mem (w : Word) : (s.hold w).mem = s.mem := rfl
@[simp] theorem State.hold_v (w : Word) : (s.hold w).v = s.v := rfl
@[simp] theorem State.hold_i (w : Word) : (s.hold w).i = s.i := rfl
@[simp] theorem State.hold_pc (w : Word) : (s.hold w).pc = s.pc := rfl
@[simp] theorem State.hold_stack (w : Word) : (s.hold w).stack = s.stack := rfl
@[simp] theorem State.hold_sp (w : Word) : (s.hold w).sp = s.sp := rfl
@[simp] theorem State.hold_dt (w : Word) : (s.hold w).dt = s.dt := rfl
@[simp] theorem State.hold_st (w : Word) : (s.hold w).st = s.st := rfl
@[simp] theorem State.hold_fb (w : Word) : (s.hold w).fb = s.fb := rfl
@[simp] theorem State.hold_draw (w : Word) : (s.hold w).draw = s.draw := rfl
@[simp] theorem State.hold_key (w : Word) : (s.hold w).key = s.key := rfl
@[simp] theorem State.hold_halted (w : Word) : (s.hold w).halted = s.halted := rfl
@[simp] theorem State.hold_cause (w : Word) : (s.hold w).cause = s.cause := rfl
@[simp] theorem State.hold_tone (w : Word) : (s.hold w).tone = s.tone := rfl
@[simp] theorem State.hold_opcode (w : Word) : (s.hold w).opcode = some w := rfl
@[simp] theorem State.hold_report (w : Word) : (s.hold w).report = s.report := rfl
@[simp] theorem State.hold_stepped (w : Word) : (s.hold w).stepped = s.stepped := rfl
@[simp] theorem State.hold_draws (w : Word) : (s.hold w).draws = s.draws := rfl

/-! ### State.idle -/

@[simp] theorem State.idle_params : (s.idle).params = s.params := rfl
@[simp] theorem State.idle_mem : (s.idle).mem = s.mem := rfl
@[simp] theorem State.idle_v : (s.idle).v = s.v := rfl
@[simp] theorem State.idle_i : (s.idle).i = s.i := rfl
@[simp] theorem State.idle_pc : (s.idle).pc = s.pc := rfl
@[simp] theorem State.idle_stack : (s.idle).stack = s.stack := rfl
@[simp] theorem State.idle_sp : (s.idle).sp = s.sp := rfl
@[simp] theorem State.idle_dt : (s.idle).dt = s.dt := rfl
@[simp] theorem State.idle_st : (s.idle).st = s.st := rfl
@[simp] theorem State.idle_fb : (s.idle).fb = s.fb := rfl
@[simp] theorem State.idle_draw : (s.idle).draw = s.draw := rfl
@[simp] theorem State.idle_key : (s.idle).key = s.key := rfl
@[simp] theorem State.idle_halted : (s.idle).halted = s.halted := rfl
@[simp] theorem State.idle_cause : (s.idle).cause = s.cause := rfl
@[simp] theorem State.idle_tone : (s.idle).tone = false := rfl
@[simp] theorem State.idle_opcode : (s.idle).opcode = s.opcode := rfl
@[simp] theorem State.idle_report : (s.idle).report = none := rfl
@[simp] theorem State.idle_stepped : (s.idle).stepped = true := rfl
@[simp] theorem State.idle_draws : (s.idle).draws = s.draws := rfl

/-! ### State.writeBoth: only V changes -/

@[simp] theorem State.writeBoth_params (x : Reg) (r : Byte) (b : Bool) (w : WriteOrder) :
    (s.writeBoth x r b w).params = s.params := by
  unfold State.writeBoth; split <;> rfl
@[simp] theorem State.writeBoth_mem (x : Reg) (r : Byte) (b : Bool) (w : WriteOrder) :
    (s.writeBoth x r b w).mem = s.mem := by
  unfold State.writeBoth; split <;> rfl
@[simp] theorem State.writeBoth_i (x : Reg) (r : Byte) (b : Bool) (w : WriteOrder) :
    (s.writeBoth x r b w).i = s.i := by
  unfold State.writeBoth; split <;> rfl
@[simp] theorem State.writeBoth_pc (x : Reg) (r : Byte) (b : Bool) (w : WriteOrder) :
    (s.writeBoth x r b w).pc = s.pc := by
  unfold State.writeBoth; split <;> rfl
@[simp] theorem State.writeBoth_stack (x : Reg) (r : Byte) (b : Bool) (w : WriteOrder) :
    (s.writeBoth x r b w).stack = s.stack := by
  unfold State.writeBoth; split <;> rfl
@[simp] theorem State.writeBoth_sp (x : Reg) (r : Byte) (b : Bool) (w : WriteOrder) :
    (s.writeBoth x r b w).sp = s.sp := by
  unfold State.writeBoth; split <;> rfl
@[simp] theorem State.writeBoth_dt (x : Reg) (r : Byte) (b : Bool) (w : WriteOrder) :
    (s.writeBoth x r b w).dt = s.dt := by
  unfold State.writeBoth; split <;> rfl
@[simp] theorem State.writeBoth_st (x : Reg) (r : Byte) (b : Bool) (w : WriteOrder) :
    (s.writeBoth x r b w).st = s.st := by
  unfold State.writeBoth; split <;> rfl
@[simp] theorem State.writeBoth_fb (x : Reg) (r : Byte) (b : Bool) (w : WriteOrder) :
    (s.writeBoth x r b w).fb = s.fb := by
  unfold State.writeBoth; split <;> rfl
@[simp] theorem State.writeBoth_draw (x : Reg) (r : Byte) (b : Bool) (w : WriteOrder) :
    (s.writeBoth x r b w).draw = s.draw := by
  unfold State.writeBoth; split <;> rfl
@[simp] theorem State.writeBoth_key (x : Reg) (r : Byte) (b : Bool) (w : WriteOrder) :
    (s.writeBoth x r b w).key = s.key := by
  unfold State.writeBoth; split <;> rfl
@[simp] theorem State.writeBoth_halted (x : Reg) (r : Byte) (b : Bool) (w : WriteOrder) :
    (s.writeBoth x r b w).halted = s.halted := by
  unfold State.writeBoth; split <;> rfl
@[simp] theorem State.writeBoth_cause (x : Reg) (r : Byte) (b : Bool) (w : WriteOrder) :
    (s.writeBoth x r b w).cause = s.cause := by
  unfold State.writeBoth; split <;> rfl
@[simp] theorem State.writeBoth_tone (x : Reg) (r : Byte) (b : Bool) (w : WriteOrder) :
    (s.writeBoth x r b w).tone = s.tone := by
  unfold State.writeBoth; split <;> rfl
@[simp] theorem State.writeBoth_opcode (x : Reg) (r : Byte) (b : Bool) (w : WriteOrder) :
    (s.writeBoth x r b w).opcode = s.opcode := by
  unfold State.writeBoth; split <;> rfl
@[simp] theorem State.writeBoth_report (x : Reg) (r : Byte) (b : Bool) (w : WriteOrder) :
    (s.writeBoth x r b w).report = s.report := by
  unfold State.writeBoth; split <;> rfl
@[simp] theorem State.writeBoth_stepped (x : Reg) (r : Byte) (b : Bool) (w : WriteOrder) :
    (s.writeBoth x r b w).stepped = s.stepped := by
  unfold State.writeBoth; split <;> rfl
@[simp] theorem State.writeBoth_draws (x : Reg) (r : Byte) (b : Bool) (w : WriteOrder) :
    (s.writeBoth x r b w).draws = s.draws := by
  unfold State.writeBoth; split <;> rfl

/-! ### State.finish: the timers, TONE, the opcode register and the host protocol change -/

@[simp] theorem State.finish_params : s.finish.params = s.params := by
  unfold State.finish; dsimp only; split <;> rfl
@[simp] theorem State.finish_mem : s.finish.mem = s.mem := by
  unfold State.finish; dsimp only; split <;> rfl
@[simp] theorem State.finish_v : s.finish.v = s.v := by
  unfold State.finish; dsimp only; split <;> rfl
@[simp] theorem State.finish_i : s.finish.i = s.i := by
  unfold State.finish; dsimp only; split <;> rfl
@[simp] theorem State.finish_pc : s.finish.pc = s.pc := by
  unfold State.finish; dsimp only; split <;> rfl
@[simp] theorem State.finish_stack : s.finish.stack = s.stack := by
  unfold State.finish; dsimp only; split <;> rfl
@[simp] theorem State.finish_sp : s.finish.sp = s.sp := by
  unfold State.finish; dsimp only; split <;> rfl
@[simp] theorem State.finish_fb : s.finish.fb = s.fb := by
  unfold State.finish; dsimp only; split <;> rfl
@[simp] theorem State.finish_draw : s.finish.draw = s.draw := by
  unfold State.finish; dsimp only; split <;> rfl
@[simp] theorem State.finish_key : s.finish.key = s.key := by
  unfold State.finish; dsimp only; split <;> rfl
@[simp] theorem State.finish_halted : s.finish.halted = s.halted := by
  unfold State.finish; dsimp only; split <;> rfl
@[simp] theorem State.finish_cause : s.finish.cause = s.cause := by
  unfold State.finish; dsimp only; split <;> rfl
@[simp] theorem State.finish_opcode : s.finish.opcode = none := rfl
@[simp] theorem State.finish_report : s.finish.report = s.report := by
  unfold State.finish; dsimp only; split <;> rfl
@[simp] theorem State.finish_stepped : s.finish.stepped = true := rfl
@[simp] theorem State.finish_draws : s.finish.draws = s.draws := by
  unfold State.finish; dsimp only; split <;> rfl

/-- A step that raised a fatal condition does not tick (R208). -/
theorem State.finish_of_halted (h : s.halted = true) :
    s.finish = { s with opcode := none, stepped := true } := by
  simp [State.finish, h]

/-- A completed step under `per_step` ticks (R167). -/
theorem State.finish_of_perStep (h : s.halted = false) (hm : s.params.timerMode = .perStep) :
    s.finish = { s.tick with opcode := none, stepped := true } := by
  simp [State.finish, h, hm]

/-- A step under `external_tick` does not tick (R169). -/
theorem State.finish_of_externalTick (hm : s.params.timerMode = .externalTick) :
    s.finish = { s with opcode := none, stepped := true } := by
  simp [State.finish, hm]

/-! ### Reading a V register after a write -/

theorem State.readV_writeV (x k : Reg) (b : Byte) :
    (s.writeV x b).readV k = if k = x then b else s.readV k := by
  simp only [State.readV, State.writeV, Fin.getElem_fin, Vector.getElem_set, Fin.ext_iff, eq_comm]

@[simp] theorem State.readV_writeV_self (x : Reg) (b : Byte) : (s.writeV x b).readV x = b := by
  simp [State.readV_writeV]

theorem State.readV_writeV_of_ne {x k : Reg} (b : Byte) (h : k ≠ x) :
    (s.writeV x b).readV k = s.readV k := by
  simp [State.readV_writeV, h]

@[simp] theorem State.readV_advance (k : Reg) : s.advance.readV k = s.readV k := rfl

@[simp] theorem State.readV_finish (k : Reg) : s.finish.readV k = s.readV k := by
  simp [State.readV]

/-- `WriteBoth` (R129): VX and VF hold the result and the flag, the later write winning at X = F. -/
theorem State.readV_writeBoth (x k : Reg) (r : Byte) (b : Bool) (w : WriteOrder) :
    (s.writeBoth x r b w).readV k =
      if w = .resultThenFlag ∨ s.params.vfDest = .flagLast then
        if k = vf then flagByte b else if k = x then r else s.readV k
      else if k = x then r else if k = vf then flagByte b else s.readV k := by
  unfold State.writeBoth
  split <;> simp_all [State.readV_writeV]

end Sys2Proof.Machine
end

