-- ==== Sys2Proof/Laws/Ops.lean ====
section
/-! SUPPORT. One lemma per shared operation that says what it can do; later proofs cite it instead of
unfolding the operation. -/

namespace Sys2Proof.Machine

/-! ### Fatal conditions, ranges and the stack -/

/-- What `orRaise` answers: the state of an effect that went through, or the fatal condition. -/
theorem State.orRaise_eq_next {s t : State} {e : Except Cause State} (h : s.orRaise e = .next t) :
    e = .ok t ∨ ∃ c, e = .error c ∧ t = s.raise c := by
  cases e with
  | ok u => left; simpa [State.orRaise] using h
  | error c => right; exact ⟨c, rfl, by simpa [State.orRaise] using h.symm⟩

theorem State.checkRange_of_inRange {s : State} {n : Nat} (t : State) (h : inRange s.i.toNat n = true) :
    s.checkRange n t = .ok t := by
  simp [State.checkRange, h]

theorem State.checkRange_of_not_inRange {s : State} {n : Nat} (t : State) (h : inRange s.i.toNat n = false) :
    s.checkRange n t = .error (.memoryOutOfRange s.pc s.opcode s.i n) := by
  simp [State.checkRange, h]

/-- A push with a free slot: the slot at SP written, SP one more, nothing else (R110). -/
theorem State.push_of_lt {s : State} (w : Word) (h : s.sp.val < 16) :
    ∃ st n, s.push w = .ok { s with stack := st, sp := n } ∧ n.val = s.sp.val + 1 ∧
      ∀ k : Fin 16, st[k] = if k.val = s.sp.val then w else s.stack[k] := by
  refine ⟨_, _, by simp only [State.push, stackDepth, dif_pos h]; rfl, rfl, fun k => ?_⟩
  simp only [Fin.getElem_fin, Vector.getElem_set, eq_comm]

theorem State.push_of_full {s : State} (w : Word) (h : s.sp.val = 16) :
    s.push w = .error (.stackOverflow s.pc s.opcode s.sp) := by
  simp [State.push, h]

/-- A pop with an entry: the slot below SP, SP one less, nothing else (R111). -/
theorem State.pop_of_pos {s : State} (k : Fin 16) (h : s.sp.val = k.val + 1) :
    ∃ n, s.pop = .ok (s.stack[k], { s with sp := n }) ∧ n.val = k.val := by
  have hlt : s.sp.val - 1 < 17 := by have := s.sp.isLt; omega
  refine ⟨⟨s.sp.val - 1, hlt⟩, ?_, by simp [h]⟩
  simp only [State.pop, Fin.getElem_fin, h, Nat.add_sub_cancel, Nat.zero_lt_succ, dite_true]

theorem State.pop_of_empty {s : State} (h : s.sp.val = 0) :
    s.pop = .error (.stackUnderflow s.pc s.opcode s.sp) := by
  simp [State.pop, h]

/-! ### Timers and keys -/

/-- A timer counts down and stops at 0 (R167). -/
theorem toNat_countdown (b : Byte) : (if b = 0 then 0 else b - 1 : Byte).toNat = b.toNat - 1 := by
  split
  · next h => simp [h]
  · next h =>
    have hb : b.toNat ≠ 0 := fun h0 => h (BitVec.eq_of_toNat_eq (by simpa using h0))
    rw [BitVec.toNat_sub_of_le (by rw [BitVec.le_def]; simp; omega)]
    simp

theorem State.leastPressed_eq_none {s : State} :
    s.leastPressed = none ↔ ∀ k : Key, s.pressed k = false := by
  simp [State.leastPressed, List.find?_eq_none]

/-- The least pressed key is pressed and none below it is (R164). -/
theorem State.leastPressed_eq_some {s : State} {k : Key} (h : s.leastPressed = some k) :
    s.pressed k = true ∧ ∀ j : Key, j < k → s.pressed j = false := by
  refine ⟨by simpa using List.find?_some h, fun j hj => ?_⟩
  obtain ⟨_, as, bs, heq, hno⟩ := List.find?_eq_some_iff_append.mp h
  have hsorted : (as ++ k :: bs).Pairwise (· < ·) := heq ▸ List.pairwise_lt_finRange 16
  have hj' : j ∈ as ++ k :: bs := heq ▸ List.mem_finRange j
  rcases List.mem_append.mp hj' with hj' | hj'
  · simpa using hno j hj'
  · exfalso
    rcases List.mem_cons.mp hj' with rfl | hj'
    · exact lt_irrefl _ hj
    · exact lt_asymm hj ((List.pairwise_cons.mp (List.pairwise_append.mp hsorted).2.1).1 j hj')

/-! ### Register blocks and the framebuffer -/

theorem State.readV_loadBlock (s : State) (x k : Reg) :
    (s.loadBlock x)[k] = if k ≤ x then Memory.read s.mem (s.i.toNat + k.val) else s.readV k := by
  simp [State.loadBlock, State.readV]

@[simp] theorem State.regBlock_length (s : State) (x : Reg) : (s.regBlock x).length = x.val + 1 := by
  simp [State.regBlock]

theorem State.getElem?_regBlock (s : State) (x k : Reg) (h : k ≤ x) :
    (s.regBlock x)[k.val]? = some (s.readV k) := by
  have : k.val < x.val + 1 := Nat.lt_succ_of_le h
  simp [State.regBlock, this, State.readV]

@[simp] theorem bcdDigits_length (b : Byte) : (bcdDigits b).length = 3 := rfl

theorem Frame.pixel_toggle (f : Frame) (x u : Fin 64) (y w : Fin 32) :
    Frame.pixel (Frame.toggle f x y) u w =
      if u = x ∧ w = y then !Frame.pixel f x y else Frame.pixel f u w := by
  simp only [Frame.pixel, Frame.toggle, Fin.getElem_fin, Vector.getElem_set]
  by_cases hw : w = y
  · subst hw
    by_cases hu : u = x
    · subst hu; simp
    · have : x.val ≠ u.val := fun h => hu (Fin.ext h.symm)
      simp [this, hu]
  · have : y.val ≠ w.val := fun h => hw (Fin.ext h.symm)
    simp [this, hw]

@[simp] theorem Frame.pixel_blank (x : Fin 64) (y : Fin 32) : Frame.pixel Frame.blank x y = false := by
  simp [Frame.pixel, Frame.blank]

/-- Two framebuffers with the same pixels are the same. -/
theorem Frame.ext_pixel {f g : Frame} (h : ∀ x y, Frame.pixel f x y = Frame.pixel g x y) : f = g := by
  apply Vector.ext; intro y hy
  apply Vector.ext; intro x hx
  exact h ⟨x, hx⟩ ⟨y, hy⟩

end Sys2Proof.Machine
end

