-- ==== Sys2Proof/Laws/Display.lean ====
section
/-! SUPPORT. What drawing a sprite does to the framebuffer and the collision bit, said once: a sprite's
bits land on different pixels, so each is XORed at most once. -/

namespace Sys2Proof.Machine

/-- One sprite bit on its way to a pixel: column, row and the bit. -/
abbrev SpriteStep := Fin 64 × Fin 32 × Bool

/-- The bits of the sprite rows from row `r` on, in drawing order. -/
def spriteSteps (vx vy : Byte) (r : Nat) : List Byte → List SpriteStep
  | [] => []
  | row :: rest =>
    (List.range 8).map (fun c => (spriteColumn vx c, spriteRow vy r, spriteBit row c)) ++
      spriteSteps vx vy (r + 1) rest

/-- Drawing bits one after the other. -/
def drawSteps (d : Frame × Bool) (steps : List SpriteStep) : Frame × Bool :=
  steps.foldl (fun acc p => drawBit acc p.1 p.2.1 p.2.2) d

theorem drawRows_eq_drawSteps (d : Frame × Bool) (vx vy : Byte) (r : Nat) (rows : List Byte) :
    drawRows d vx vy r rows = drawSteps d (spriteSteps vx vy r rows) := by
  induction rows generalizing d r with
  | nil => rfl
  | cons row rest ih =>
    rw [drawRows, ih, spriteSteps, drawSteps, drawSteps, List.foldl_append, List.foldl_map, drawRow]

/-- Bits that land on different pixels: a pixel flips when a 1 lands on it, and the collision bit says
whether one landed on a pixel that was set before. -/
theorem drawSteps_spec (steps : List SpriteStep) (d : Frame × Bool)
    (h : steps.Pairwise fun a b => (a.1, a.2.1) ≠ (b.1, b.2.1)) :
    (∀ x y, Frame.pixel (drawSteps d steps).1 x y =
      (Frame.pixel d.1 x y != decide ((x, y, true) ∈ steps))) ∧
    ((drawSteps d steps).2 = true ↔
      d.2 = true ∨ ∃ x y, (x, y, true) ∈ steps ∧ Frame.pixel d.1 x y = true) := by
  induction steps generalizing d with
  | nil => simp [drawSteps]
  | cons p rest ih =>
    obtain ⟨u, w, b⟩ := p
    obtain ⟨hne, hrest⟩ := List.pairwise_cons.mp h
    have hnot : ∀ b', (u, w, b') ∉ rest := fun b' hm => hne _ hm rfl
    have hstep : drawSteps d ((u, w, b) :: rest) = drawSteps (drawBit d u w b) rest := rfl
    obtain ⟨ih1, ih2⟩ := ih (drawBit d u w b) hrest
    rw [hstep]
    cases b with
    | false =>
      simp only [drawBit, Bool.false_eq_true, if_false] at ih1 ih2 ⊢
      exact ⟨fun x y => by simp [ih1], by simp [ih2]⟩
    | true =>
      simp only [drawBit, if_true] at ih1 ih2 ⊢
      refine ⟨fun x y => ?_, ?_⟩
      · rw [ih1, Frame.pixel_toggle]
        by_cases hxy : x = u ∧ y = w
        · obtain ⟨rfl, rfl⟩ := hxy; simp [hnot]
        · have : (x, y, true) ≠ (u, w, true) := fun he => hxy (by simpa using he)
          simp [hxy]
      · rw [ih2]
        constructor
        · rintro (h | ⟨x, y, hm, hp⟩)
          · rcases Bool.or_eq_true_iff.mp h with h | h
            · exact .inl h
            · exact .inr ⟨u, w, by simp, h⟩
          · have : ¬(x = u ∧ y = w) := by rintro ⟨rfl, rfl⟩; exact hnot _ hm
            exact .inr ⟨x, y, List.mem_cons_of_mem _ hm, by simpa [Frame.pixel_toggle, this] using hp⟩
        · rintro (h | ⟨x, y, hm, hp⟩)
          · exact .inl (by simp [h])
          · rcases List.mem_cons.mp hm with he | hm'
            · simp only [Prod.mk.injEq, and_true] at he
              obtain ⟨rfl, rfl⟩ := he
              exact .inl (by simp [hp])
            · have : ¬(x = u ∧ y = w) := by rintro ⟨rfl, rfl⟩; exact hnot _ hm'
              exact .inr ⟨x, y, hm', by simpa [Frame.pixel_toggle, this] using hp⟩

theorem mem_spriteSteps {vx vy : Byte} {r : Nat} {rows : List Byte} {p : SpriteStep} :
    p ∈ spriteSteps vx vy r rows ↔ ∃ k c row, rows[k]? = some row ∧ c < 8 ∧
      p = (spriteColumn vx c, spriteRow vy (r + k), spriteBit row c) := by
  induction rows generalizing r with
  | nil => simp [spriteSteps]
  | cons row rest ih =>
    simp only [spriteSteps, List.mem_append, List.mem_map, List.mem_range, ih]
    constructor
    · rintro (⟨c, hc, rfl⟩ | ⟨k, c, row', hk, hc, rfl⟩)
      · exact ⟨0, c, row, rfl, hc, rfl⟩
      · exact ⟨k + 1, c, row', by simpa using hk, hc, by rw [Nat.add_right_comm]; rfl⟩
    · rintro ⟨k, c, row', hk, hc, rfl⟩
      cases k with
      | zero => exact .inl ⟨c, hc, by simp_all⟩
      | succ k => exact .inr ⟨k, c, row', by simpa using hk, hc, by rw [Nat.add_right_comm]; rfl⟩

/-- The bits of at most 32 rows land on different pixels (R100: 8 columns of 64, up to 15 rows of 32). -/
theorem spriteSteps_pairwise (vx vy : Byte) (r : Nat) (rows : List Byte) (h : rows.length ≤ 32) :
    (spriteSteps vx vy r rows).Pairwise fun a b => (a.1, a.2.1) ≠ (b.1, b.2.1) := by
  induction rows generalizing r with
  | nil => exact .nil
  | cons row rest ih =>
    have h' : rest.length + 1 ≤ 32 := h
    refine List.pairwise_append.mpr ⟨?_, ih (r + 1) (by omega), ?_⟩
    · refine List.pairwise_map.mpr ((List.pairwise_lt_range (n := 8)).imp_of_mem ?_)
      intro a b ha hb hab he
      simp only [List.mem_range] at ha hb
      simp only [spriteColumn, Prod.mk.injEq, Fin.mk.injEq] at he
      omega
    · rintro p hp q hq
      simp only [List.mem_map, List.mem_range] at hp
      obtain ⟨c, -, rfl⟩ := hp
      obtain ⟨k, c', row', hk, -, rfl⟩ := mem_spriteSteps.mp hq
      have hk' := (List.getElem?_eq_some_iff.mp hk).1
      intro he
      simp only [spriteRow, Prod.mk.injEq, Fin.mk.injEq] at he
      omega

end Sys2Proof.Machine
end

