-- ==== Sys2Proof/Laws/Exec.lean ====
section
/-! SUPPORT. What an instruction can do, said once: it raises a fatal condition, or it has its effect. -/

namespace Sys2Proof.Machine

/-- The effect of an instruction that raises nothing. For the six that may raise it is written out; for
every other the meaning is a next state outright. -/
def Completes (i : Instr) (s t : State) : Prop :=
  match i with
  | .ret => ∃ (k : Fin 16) (n : Fin 17), s.sp.val = k.val + 1 ∧ n.val = k.val ∧
      t = { s with sp := n, pc := s.stack[k] }
  | .call nnn => ∃ (st : Vector Word 16) (n : Fin 17), s.sp.val < 16 ∧ n.val = s.sp.val + 1 ∧
      (∀ k : Fin 16, st[k] = if k.val = s.sp.val then s.pc + 2 else s.stack[k]) ∧
      t = { s with stack := st, sp := n, pc := addrOf nnn }
  | .drw x y n => inRange s.i.toNat n.toNat = true ∧
      t = ({ s with fb := (s.drawn x y n.toNat).1, draw := true }.writeV vf
        (flagByte (s.drawn x y n.toNat).2)).advance
  | .ldBVx x => inRange s.i.toNat 3 = true ∧
      t = { s with mem := Memory.writeAll s.mem s.i.toNat (bcdDigits (s.readV x)) }.advance
  | .ldMIVx x => inRange s.i.toNat (x.val + 1) = true ∧
      t = { s with mem := Memory.writeAll s.mem s.i.toNat (s.regBlock x) }.advance
  | .ldVxMI x => inRange s.i.toNat (x.val + 1) = true ∧ t = { s with v := s.loadBlock x }.advance
  | .ldVxK x => (s.leastPressed = none ∧ t = s.goto s.pc) ∨
      ∃ k : Key, s.leastPressed = some k ∧ t = (s.writeV x (BitVec.ofNat 8 k.val)).advance
  | i => exec i s = .next t

theorem orRaise_checkRange_cases {s t u : State} {n : Nat}
    (h : s.orRaise (s.checkRange n u) = .next t) :
    (∃ c, c ≠ .none ∧ t = s.raise c) ∨ (inRange s.i.toNat n = true ∧ t = u) := by
  cases hr : inRange s.i.toNat n with
  | true =>
    rw [State.checkRange_of_inRange u hr, State.orRaise] at h
    exact .inr ⟨rfl, by simpa [eq_comm] using h⟩
  | false =>
    rw [State.checkRange_of_not_inRange u hr, State.orRaise] at h
    exact .inl ⟨_, Cause.noConfusion, by simpa [eq_comm] using h⟩

/-- INVERSION of an instruction that answers a next state: the fatal condition it raised, entered from
the state before it, or its effect. -/
theorem exec_cases {i : Instr} {s t : State} (h : exec i s = .next t) :
    (∃ c, c ≠ .none ∧ t = s.raise c) ∨ Completes i s t := by
  cases i
  case ret =>
    rw [exec, execRet] at h
    rcases Nat.eq_zero_or_pos s.sp.val with h0 | h0
    · rw [State.pop_of_empty h0] at h
      exact .inl ⟨_, Cause.noConfusion, by simpa [State.orRaise, Except.map, eq_comm] using h⟩
    · have hk : s.sp.val = (⟨s.sp.val - 1, by omega⟩ : Fin 16).val + 1 := (Nat.sub_add_cancel h0).symm
      obtain ⟨n, h1, h2⟩ := State.pop_of_pos _ hk
      rw [h1] at h
      cases h
      exact .inr ⟨_, n, hk, h2, rfl⟩
  case call nnn =>
    rw [exec, execCall] at h
    rcases Nat.lt_or_ge s.sp.val 16 with h0 | h0
    · obtain ⟨st, n, h1, h2, h3⟩ := State.push_of_lt (s.pc + 2) h0
      rw [h1] at h
      cases h
      exact .inr ⟨st, n, h0, h2, h3, rfl⟩
    · rw [State.push_of_full _ (by omega)] at h
      exact .inl ⟨_, Cause.noConfusion, by simpa [State.orRaise, Except.map, eq_comm] using h⟩
  case drw => exact orRaise_checkRange_cases h
  case ldBVx => exact orRaise_checkRange_cases h
  case ldMIVx => exact orRaise_checkRange_cases h
  case ldVxMI => exact orRaise_checkRange_cases h
  case ldVxK =>
    rw [exec, execLdVxK] at h
    right
    cases hl : s.leastPressed with
    | none => rw [hl] at h; exact .inl ⟨hl, by simpa [eq_comm] using h⟩
    | some k => rw [hl] at h; exact .inr ⟨k, hl, by simpa [eq_comm] using h⟩
  all_goals exact .inr h

end Sys2Proof.Machine
end

