-- ==== Sys2Proof/Laws/PerInstr.lean ====
section
/-! SUPPORT. A statement per instruction about the instruction as syntax: the word the encoder gives is
one its row of spec/opcode_table.json matches. -/

namespace Sys2Proof.Laws.TableRow

/-- The fixed nibbles of an instruction's row: the group, and what the word is modulo the size of the
fixed low part (modulus 1 where the row fixes no low nibble). -/
def fixedParts : Instr → Nat × Nat × Nat
  | .cls => (0x0, 4096, 0xE0)
  | .ret => (0x0, 4096, 0xEE)
  | .jp _ => (0x1, 1, 0x0)
  | .call _ => (0x2, 1, 0x0)
  | .seImm _ _ => (0x3, 1, 0x0)
  | .sneImm _ _ => (0x4, 1, 0x0)
  | .seReg _ _ => (0x5, 16, 0x0)
  | .ldImm _ _ => (0x6, 1, 0x0)
  | .addImm _ _ => (0x7, 1, 0x0)
  | .ldReg _ _ => (0x8, 16, 0x0)
  | .orReg _ _ => (0x8, 16, 0x1)
  | .andReg _ _ => (0x8, 16, 0x2)
  | .xorReg _ _ => (0x8, 16, 0x3)
  | .addReg _ _ => (0x8, 16, 0x4)
  | .sub _ _ => (0x8, 16, 0x5)
  | .shr _ _ => (0x8, 16, 0x6)
  | .subn _ _ => (0x8, 16, 0x7)
  | .shl _ _ => (0x8, 16, 0xE)
  | .sneReg _ _ => (0x9, 16, 0x0)
  | .ldI _ => (0xA, 1, 0x0)
  | .jpV0 _ => (0xB, 1, 0x0)
  | .rnd _ _ => (0xC, 1, 0x0)
  | .drw _ _ _ => (0xD, 1, 0x0)
  | .skp _ => (0xE, 256, 0x9E)
  | .sknp _ => (0xE, 256, 0xA1)
  | .ldVxDT _ => (0xF, 256, 0x7)
  | .ldVxK _ => (0xF, 256, 0xA)
  | .ldDTVx _ => (0xF, 256, 0x15)
  | .ldSTVx _ => (0xF, 256, 0x18)
  | .addIVx _ => (0xF, 256, 0x1E)
  | .ldFVx _ => (0xF, 256, 0x29)
  | .ldBVx _ => (0xF, 256, 0x33)
  | .ldMIVx _ => (0xF, 256, 0x55)
  | .ldVxMI _ => (0xF, 256, 0x65)

/-- The encoder's word has the fixed nibbles of the instruction's row (R74). -/
def Statement (i : Instr) : Prop :=
  (encode i).toNat / 4096 = (fixedParts i).1 ∧
    (encode i).toNat % (fixedParts i).2.1 = (fixedParts i).2.2

theorem cls : Statement (.cls) := by
  simp [Statement, fixedParts, encode]

theorem ret : Statement (.ret) := by
  simp [Statement, fixedParts, encode]

theorem jp (nnn : Addr) : Statement (.jp nnn) := by
  have := nnn.isLt
  simp only [Statement, fixedParts, encode, toNat_wordNNN (g := 1) (by decide)]
  omega

theorem call (nnn : Addr) : Statement (.call nnn) := by
  have := nnn.isLt
  simp only [Statement, fixedParts, encode, toNat_wordNNN (g := 2) (by decide)]
  omega

theorem seImm (x : Reg) (nn : Byte) : Statement (.seImm x nn) := by
  have := x.isLt
  have := nn.isLt
  simp only [Statement, fixedParts, encode, toNat_wordXNN (g := 3) (by decide)]
  omega

theorem sneImm (x : Reg) (nn : Byte) : Statement (.sneImm x nn) := by
  have := x.isLt
  have := nn.isLt
  simp only [Statement, fixedParts, encode, toNat_wordXNN (g := 4) (by decide)]
  omega

theorem seReg (x y : Reg) : Statement (.seReg x y) := by
  have := x.isLt
  have := y.isLt
  simp only [Statement, fixedParts, encode, toNat_wordXYN (g := 5) (by decide), BitVec.reduceToNat]
  omega

theorem ldImm (x : Reg) (nn : Byte) : Statement (.ldImm x nn) := by
  have := x.isLt
  have := nn.isLt
  simp only [Statement, fixedParts, encode, toNat_wordXNN (g := 6) (by decide)]
  omega

theorem addImm (x : Reg) (nn : Byte) : Statement (.addImm x nn) := by
  have := x.isLt
  have := nn.isLt
  simp only [Statement, fixedParts, encode, toNat_wordXNN (g := 7) (by decide)]
  omega

theorem ldReg (x y : Reg) : Statement (.ldReg x y) := by
  have := x.isLt
  have := y.isLt
  simp only [Statement, fixedParts, encode, toNat_wordXYN (g := 8) (by decide), BitVec.reduceToNat]
  omega

theorem orReg (x y : Reg) : Statement (.orReg x y) := by
  have := x.isLt
  have := y.isLt
  simp only [Statement, fixedParts, encode, toNat_wordXYN (g := 8) (by decide), BitVec.reduceToNat]
  omega

theorem andReg (x y : Reg) : Statement (.andReg x y) := by
  have := x.isLt
  have := y.isLt
  simp only [Statement, fixedParts, encode, toNat_wordXYN (g := 8) (by decide), BitVec.reduceToNat]
  omega

theorem xorReg (x y : Reg) : Statement (.xorReg x y) := by
  have := x.isLt
  have := y.isLt
  simp only [Statement, fixedParts, encode, toNat_wordXYN (g := 8) (by decide), BitVec.reduceToNat]
  omega

theorem addReg (x y : Reg) : Statement (.addReg x y) := by
  have := x.isLt
  have := y.isLt
  simp only [Statement, fixedParts, encode, toNat_wordXYN (g := 8) (by decide), BitVec.reduceToNat]
  omega

theorem sub (x y : Reg) : Statement (.sub x y) := by
  have := x.isLt
  have := y.isLt
  simp only [Statement, fixedParts, encode, toNat_wordXYN (g := 8) (by decide), BitVec.reduceToNat]
  omega

theorem shr (x y : Reg) : Statement (.shr x y) := by
  have := x.isLt
  have := y.isLt
  simp only [Statement, fixedParts, encode, toNat_wordXYN (g := 8) (by decide), BitVec.reduceToNat]
  omega

theorem subn (x y : Reg) : Statement (.subn x y) := by
  have := x.isLt
  have := y.isLt
  simp only [Statement, fixedParts, encode, toNat_wordXYN (g := 8) (by decide), BitVec.reduceToNat]
  omega

theorem shl (x y : Reg) : Statement (.shl x y) := by
  have := x.isLt
  have := y.isLt
  simp only [Statement, fixedParts, encode, toNat_wordXYN (g := 8) (by decide), BitVec.reduceToNat]
  omega

theorem sneReg (x y : Reg) : Statement (.sneReg x y) := by
  have := x.isLt
  have := y.isLt
  simp only [Statement, fixedParts, encode, toNat_wordXYN (g := 9) (by decide), BitVec.reduceToNat]
  omega

theorem ldI (nnn : Addr) : Statement (.ldI nnn) := by
  have := nnn.isLt
  simp only [Statement, fixedParts, encode, toNat_wordNNN (g := 10) (by decide)]
  omega

theorem jpV0 (nnn : Addr) : Statement (.jpV0 nnn) := by
  have := nnn.isLt
  simp only [Statement, fixedParts, encode, toNat_wordNNN (g := 11) (by decide)]
  omega

theorem rnd (x : Reg) (nn : Byte) : Statement (.rnd x nn) := by
  have := x.isLt
  have := nn.isLt
  simp only [Statement, fixedParts, encode, toNat_wordXNN (g := 12) (by decide)]
  omega

theorem drw (x y : Reg) (n : Nibble) : Statement (.drw x y n) := by
  have := x.isLt
  have := y.isLt
  have := n.isLt
  simp only [Statement, fixedParts, encode, toNat_wordXYN (g := 13) (by decide)]
  omega

theorem skp (x : Reg) : Statement (.skp x) := by
  have := x.isLt
  simp only [Statement, fixedParts, encode, toNat_wordXNN (g := 14) (by decide), BitVec.reduceToNat]
  omega

theorem sknp (x : Reg) : Statement (.sknp x) := by
  have := x.isLt
  simp only [Statement, fixedParts, encode, toNat_wordXNN (g := 14) (by decide), BitVec.reduceToNat]
  omega

theorem ldVxDT (x : Reg) : Statement (.ldVxDT x) := by
  have := x.isLt
  simp only [Statement, fixedParts, encode, toNat_wordXNN (g := 15) (by decide), BitVec.reduceToNat]
  omega

theorem ldVxK (x : Reg) : Statement (.ldVxK x) := by
  have := x.isLt
  simp only [Statement, fixedParts, encode, toNat_wordXNN (g := 15) (by decide), BitVec.reduceToNat]
  omega

theorem ldDTVx (x : Reg) : Statement (.ldDTVx x) := by
  have := x.isLt
  simp only [Statement, fixedParts, encode, toNat_wordXNN (g := 15) (by decide), BitVec.reduceToNat]
  omega

theorem ldSTVx (x : Reg) : Statement (.ldSTVx x) := by
  have := x.isLt
  simp only [Statement, fixedParts, encode, toNat_wordXNN (g := 15) (by decide), BitVec.reduceToNat]
  omega

theorem addIVx (x : Reg) : Statement (.addIVx x) := by
  have := x.isLt
  simp only [Statement, fixedParts, encode, toNat_wordXNN (g := 15) (by decide), BitVec.reduceToNat]
  omega

theorem ldFVx (x : Reg) : Statement (.ldFVx x) := by
  have := x.isLt
  simp only [Statement, fixedParts, encode, toNat_wordXNN (g := 15) (by decide), BitVec.reduceToNat]
  omega

theorem ldBVx (x : Reg) : Statement (.ldBVx x) := by
  have := x.isLt
  simp only [Statement, fixedParts, encode, toNat_wordXNN (g := 15) (by decide), BitVec.reduceToNat]
  omega

theorem ldMIVx (x : Reg) : Statement (.ldMIVx x) := by
  have := x.isLt
  simp only [Statement, fixedParts, encode, toNat_wordXNN (g := 15) (by decide), BitVec.reduceToNat]
  omega

theorem ldVxMI (x : Reg) : Statement (.ldVxMI x) := by
  have := x.isLt
  simp only [Statement, fixedParts, encode, toNat_wordXNN (g := 15) (by decide), BitVec.reduceToNat]
  omega

end Sys2Proof.Laws.TableRow
end

