-- ==== Sys2Proof/Laws/Run.lean ====
section
/-! SUPPORT. The induction over a run (R260), packaged once: what every host operation keeps holds at
every state of a run. `Step` is one of the operations. -/

namespace Sys2Proof

open Machine

variable {P : State → Prop}

theorem afterOps_induct (hop : ∀ op s t, P s → perform op s = .next t → P t) {ops : List HostOp}
    {s t : State} (h : AfterOps ops s t) (hs : P s) : P t := by
  induction ops generalizing s with
  | nil => exact (show t = s from h) ▸ hs
  | cons op rest ih =>
    obtain ⟨-, u, hu, hrest⟩ := h
    exact ih hrest (hop op s u hs hu)

theorem afterRounds_induct (hop : ∀ op s t, P s → perform op s = .next t → P t)
    {rounds : List (List HostOp)} {s t : State} (h : AfterRounds rounds s t) (hs : P s) : P t := by
  induction rounds generalizing s with
  | nil => exact (show t = s from h) ▸ hs
  | cons ops rest ih =>
    obtain ⟨-, u, v, hu, hv, hrest⟩ := h
    exact ih hrest (hop .step u v (afterOps_induct hop hu hs) hv)

theorem run_induct (hop : ∀ op s t, P s → perform op s = .next t → P t)
    {rounds : List (List HostOp)} {last : List HostOp} {s t : State} (h : Run rounds last s t)
    (hs : P s) : P t := by
  obtain ⟨u, hu, hlast, -⟩ := h
  exact afterOps_induct hop hlast (afterRounds_induct hop hu hs)

end Sys2Proof
end

