-- ==== Sys2Proof/Laws/Step.lean ====
section
/-! SUPPORT. What a step can do, said once. -/

namespace Sys2Proof.Machine

/-! ### The four shapes of a step, as equations -/

theorem step_eq_idle {s : State} (h : s.halted = true) : step s = .next s.idle := by
  simp [step, cycle, h]

theorem step_eq_fetchFault {s : State} (h : s.halted = false) (hf : s.fetch = none) :
    step s = .next (s.begin.raise (.fetchOutOfRange s.pc)).finish := by
  simp [step, cycle, h, hf, finishResult]

theorem step_eq_unknown {s : State} {w : Word} (h : s.halted = false) (hf : s.fetch = some w)
    (hd : decodeWord s.params w = none) : step s = finishResult (execUnknown w (s.begin.hold w)) := by
  simp [step, cycle, h, hf, runWord, hd]

theorem step_eq_exec {s : State} {w : Word} {i : Instr} (h : s.halted = false) (hf : s.fetch = some w)
    (hd : decodeWord s.params w = some i) : step s = finishResult (exec i (s.begin.hold w)) := by
  simp [step, cycle, h, hf, runWord, hd]

/-- INVERSION of a step that answers a next state: the core was halted and idles, or the fetch was out
of range, or the word fetched was UNKNOWN, or an instruction ran and the step ended. -/
theorem step_cases {s t : State} (h : step s = .next t) :
    (s.halted = true ∧ t = s.idle) ∨
    (s.halted = false ∧ s.fetch = none ∧ t = (s.begin.raise (.fetchOutOfRange s.pc)).finish) ∨
    (∃ w, s.halted = false ∧ s.fetch = some w ∧ decodeWord s.params w = none ∧
      t = ({ s.begin.hold w with report := some (.unknownOpcode s.pc w) }.advance).finish) ∨
    (∃ w i u, s.halted = false ∧ s.fetch = some w ∧ decodeWord s.params w = some i ∧
      exec i (s.begin.hold w) = .next u ∧ t = u.finish) := by
  cases hh : s.halted with
  | true =>
    rw [step_eq_idle hh] at h
    exact .inl ⟨rfl, by simpa [eq_comm] using h⟩
  | false =>
    right
    cases hf : s.fetch with
    | none =>
      rw [step_eq_fetchFault hh hf] at h
      exact .inl ⟨rfl, rfl, by simpa [eq_comm] using h⟩
    | some w =>
      right
      cases hd : decodeWord s.params w with
      | none =>
        rw [step_eq_unknown hh hf hd] at h
        exact .inl ⟨w, rfl, rfl, hd, by simpa [execUnknown, finishResult, eq_comm] using h⟩
      | some i =>
        right
        rw [step_eq_exec hh hf hd] at h
        cases hx : exec i (s.begin.hold w) with
        | next u => rw [hx] at h; exact ⟨w, i, u, rfl, rfl, hd, hx, by simpa [finishResult, eq_comm] using h⟩
        | fault f => cases f
        | refused r => rw [hx] at h; cases h

/-- A fetch that is in range gives the big-endian word at PC (R54, R60). -/
theorem State.fetch_eq_some {s : State} {w : Word} (h : s.fetch = some w) :
    s.pc.toNat + 1 ≤ 0xFFF ∧
      w = concatBytes (Memory.read s.mem s.pc.toNat) (Memory.read s.mem (s.pc.toNat + 1)) := by
  unfold State.fetch at h
  split at h
  · cases h
  · next hle => exact ⟨by simpa using hle, by simpa [eq_comm] using h⟩

end Sys2Proof.Machine
end

