-- ==== Sys2Proof/Machine/Assembler.lean ====
section
/-! DEFINITION. The assembler syntax of R83: the text of an instruction, with registers, addresses and
bytes in hex. -/

namespace Sys2Proof

/-- A hex digit, upper case. -/
def hexDigit (n : Nat) : Char :=
  if n % 16 < 10 then Char.ofNat (n % 16 + 48) else Char.ofNat (n % 16 + 55)

/-- The last `digits` hex digits of a number, most significant first. -/
def hexDigits : Nat → Nat → List Char
  | 0, _ => []
  | d + 1, n => hexDigit (n / 16 ^ d) :: hexDigits d n

/-- A number with `digits` hex digits after 0x. -/
def hexText (digits n : Nat) : String := String.ofList ('0' :: 'x' :: hexDigits digits n)

/-- The name of a V register. -/
def regText (x : Reg) : String := String.ofList ['V', hexDigit x.val]

/-- Two operands. -/
def twoOperands (mnemonic a b : String) : String := mnemonic ++ " " ++ a ++ ", " ++ b

/-- The shifts' optional Vy, left out where the Y field is 0 (R83). -/
def shiftText (mnemonic : String) (x y : Reg) : String :=
  if y = 0 then mnemonic ++ " " ++ regText x else twoOperands mnemonic (regText x) (regText y)

/-- The syntax of an instruction (R83). -/
def Instr.asm : Instr → String
  | .cls => "CLS"
  | .ret => "RET"
  | .jp nnn => "JP " ++ hexText 3 nnn.toNat
  | .call nnn => "CALL " ++ hexText 3 nnn.toNat
  | .seImm x nn => twoOperands "SE" (regText x) (hexText 2 nn.toNat)
  | .sneImm x nn => twoOperands "SNE" (regText x) (hexText 2 nn.toNat)
  | .seReg x y => twoOperands "SE" (regText x) (regText y)
  | .ldImm x nn => twoOperands "LD" (regText x) (hexText 2 nn.toNat)
  | .addImm x nn => twoOperands "ADD" (regText x) (hexText 2 nn.toNat)
  | .ldReg x y => twoOperands "LD" (regText x) (regText y)
  | .orReg x y => twoOperands "OR" (regText x) (regText y)
  | .andReg x y => twoOperands "AND" (regText x) (regText y)
  | .xorReg x y => twoOperands "XOR" (regText x) (regText y)
  | .addReg x y => twoOperands "ADD" (regText x) (regText y)
  | .sub x y => twoOperands "SUB" (regText x) (regText y)
  | .shr x y => shiftText "SHR" x y
  | .subn x y => twoOperands "SUBN" (regText x) (regText y)
  | .shl x y => shiftText "SHL" x y
  | .sneReg x y => twoOperands "SNE" (regText x) (regText y)
  | .ldI nnn => twoOperands "LD" "I" (hexText 3 nnn.toNat)
  | .jpV0 nnn => twoOperands "JP" "V0" (hexText 3 nnn.toNat)
  | .rnd x nn => twoOperands "RND" (regText x) (hexText 2 nn.toNat)
  | .drw x y n => twoOperands "DRW" (regText x) (regText y) ++ ", " ++ String.ofList [hexDigit n.toNat]
  | .skp x => "SKP " ++ regText x
  | .sknp x => "SKNP " ++ regText x
  | .ldVxDT x => twoOperands "LD" (regText x) "DT"
  | .ldVxK x => twoOperands "LD" (regText x) "K"
  | .ldDTVx x => twoOperands "LD" "DT" (regText x)
  | .ldSTVx x => twoOperands "LD" "ST" (regText x)
  | .addIVx x => twoOperands "ADD" "I" (regText x)
  | .ldFVx x => twoOperands "LD" "F" (regText x)
  | .ldBVx x => twoOperands "LD" "B" (regText x)
  | .ldMIVx x => twoOperands "LD" "[I]" (regText x)
  | .ldVxMI x => twoOperands "LD" (regText x) "[I]"

/-- The text of any opcode word: its instruction's, or `DW 0xhhhh` for a raw word (R83). -/
def wordAsm (p : Params) (w : Word) : String :=
  match decodeWord p w with
  | some i => i.asm
  | none => "DW " ++ hexText 4 w.toNat

end Sys2Proof
end

