-- ==== Sys2Proof/Tests/Slice0.lean ====
section
/-! SUPPORT. The model's own tests. Expected results are the spec's: the words are written out from the
bit patterns of spec/opcode_table.json, the steps from the vectors of spec/95_test_vectors.md and the
worked examples of the instruction rules. -/

namespace Sys2Proof.Tests

open Sys2Proof.Machine

/-- Does the outcome give a next state with the property? -/
def nextIs (r : Result) (p : State → Bool) : Bool :=
  match r with
  | .next t => p t
  | _ => false

/-- One step from a state with the word placed at its PC. -/
def run1 (w : Nat) (s : State) : Result := step (s.withFetchWord 16 w)

/-- The reset state with other V registers. -/
def regs (l : List (Reg × Byte)) : State := l.foldl (fun s p => s.writeV p.1 p.2) State.reset

/-! ## WellFormed -/

/-- The one check: `9XY0` is no instruction of a machine with HAS_9XY0 = false (R76). -/
theorem test_wellFormed_refuses_sneReg :
    WellFormed { defaultParams with has9xy0 := false } (.sneReg 1 2) = false := by decide

theorem test_wellFormed_accepts_sneReg : WellFormed defaultParams (.sneReg 1 2) = true := by decide

/-! ## Decoding: one word per constructor, its bits written out from the opcode table -/

theorem test_decode_cls : decodeTableWord 16 0b0000000011100000 = some .cls := by decide
theorem test_decode_ret : decodeTableWord 16 0b0000000011101110 = some .ret := by decide
theorem test_decode_jp : decodeTableWord 16 0b0001001000000100 = some (.jp 0x204) := by decide
theorem test_decode_call : decodeTableWord 16 0b0010001100000000 = some (.call 0x300) := by decide
theorem test_decode_seImm : decodeTableWord 16 0b0011000110100101 = some (.seImm 1 0xA5) := by decide
theorem test_decode_sneImm : decodeTableWord 16 0b0100001000000111 = some (.sneImm 2 7) := by decide
theorem test_decode_seReg : decodeTableWord 16 0b0101001101000000 = some (.seReg 3 4) := by decide
theorem test_decode_ldImm : decodeTableWord 16 0b0110000100011010 = some (.ldImm 1 0x1A) := by decide
theorem test_decode_addImm : decodeTableWord 16 0b0111001100000101 = some (.addImm 3 5) := by decide
theorem test_decode_ldReg : decodeTableWord 16 0b1000000100100000 = some (.ldReg 1 2) := by decide
theorem test_decode_orReg : decodeTableWord 16 0b1000000100100001 = some (.orReg 1 2) := by decide
theorem test_decode_andReg : decodeTableWord 16 0b1000000100100010 = some (.andReg 1 2) := by decide
theorem test_decode_xorReg : decodeTableWord 16 0b1000000100100011 = some (.xorReg 1 2) := by decide
theorem test_decode_addReg : decodeTableWord 16 0b1000111100010100 = some (.addReg 15 1) := by decide
theorem test_decode_sub : decodeTableWord 16 0b1000000100100101 = some (.sub 1 2) := by decide
theorem test_decode_shr : decodeTableWord 16 0b1000000100100110 = some (.shr 1 2) := by decide
theorem test_decode_subn : decodeTableWord 16 0b1000000100100111 = some (.subn 1 2) := by decide
theorem test_decode_shl : decodeTableWord 16 0b1000000100101110 = some (.shl 1 2) := by decide
theorem test_decode_sneReg : decodeTableWord 16 0b1001001101000000 = some (.sneReg 3 4) := by decide
theorem test_decode_ldI : decodeTableWord 16 0b1010001100000000 = some (.ldI 0x300) := by decide
theorem test_decode_jpV0 : decodeTableWord 16 0b1011001100000000 = some (.jpV0 0x300) := by decide
theorem test_decode_rnd : decodeTableWord 16 0b1100000100001111 = some (.rnd 1 0x0F) := by decide
theorem test_decode_drw : decodeTableWord 16 0b1101000100100101 = some (.drw 1 2 5) := by decide
theorem test_decode_skp : decodeTableWord 16 0b1110000110011110 = some (.skp 1) := by decide
theorem test_decode_sknp : decodeTableWord 16 0b1110000110100001 = some (.sknp 1) := by decide
theorem test_decode_ldVxDT : decodeTableWord 16 0b1111000100000111 = some (.ldVxDT 1) := by decide
theorem test_decode_ldVxK : decodeTableWord 16 0b1111001000001010 = some (.ldVxK 2) := by decide
theorem test_decode_ldDTVx : decodeTableWord 16 0b1111010000010101 = some (.ldDTVx 4) := by decide
theorem test_decode_ldSTVx : decodeTableWord 16 0b1111010000011000 = some (.ldSTVx 4) := by decide
theorem test_decode_addIVx : decodeTableWord 16 0b1111001000011110 = some (.addIVx 2) := by decide
theorem test_decode_ldFVx : decodeTableWord 16 0b1111001100101001 = some (.ldFVx 3) := by decide
theorem test_decode_ldBVx : decodeTableWord 16 0b1111010000110011 = some (.ldBVx 4) := by decide
theorem test_decode_ldMIVx : decodeTableWord 16 0b1111000101010101 = some (.ldMIVx 1) := by decide
theorem test_decode_ldVxMI : decodeTableWord 16 0b1111001001100101 = some (.ldVxMI 2) := by decide

/-- Words of 95 section 2.1 that are UNKNOWN under the defaults. -/
theorem test_decode_unknown :
    [0x0123, 0x0000, 0x00E1, 0x01E0, 0x01EE, 0x5121, 0x8008, 0x800F, 0x9001, 0xE000, 0xE09F, 0xF000,
      0xF0FF].map (decodeTableWord 16) = List.replicate 13 none := by decide

/-- DECODE_STRICT = false (95 section 2.1, E13). -/
theorem test_decode_loose :
    [0x01E0, 0x01EE, 0x5121, 0x9001].map (decodeWord { defaultParams with decodeStrict := false }) =
      [some .cls, some .ret, some (.seReg 1 2), some (.sneReg 0 0)] := by decide

/-- The decoder names what it rejects and leaves the bytes after an instruction. -/
theorem test_decode_bytes :
    decode defaultParams [0x12] = .error .truncated ∧
      decode defaultParams [0x50, 0x01] = .error (.unknownOpcode 0x5001) ∧
      decode defaultParams [0x63, 0x05, 0x73] = .ok (.ldImm 3 5, [0x73]) := by decide

/-- The syntax of program P3 and the optional Vy (R83). -/
theorem test_asm :
    [Instr.drw 0 1 2, .shr 1 0, .jp 0x20A].map Instr.asm = ["DRW V0, V1, 2", "SHR V1", "JP 0x20A"] := by
  decide

/-! ## One step per instruction -/

theorem test_cls : nextIs (run1 0x00E0 { State.reset with fb := Frame.toggle Frame.blank 3 4 }) (fun t =>
    t.fb = Frame.blank ∧ t.draw ∧ t.pc = 0x202) = true := by decide

/-- 95 section 2.2: a collision, and a 0 bit over a set pixel. -/
theorem test_drw_collision : nextIs (run1 0xD011 { State.reset with
      fb := Frame.toggle Frame.blank 0 0, i := 0x300, mem := [(0x300, 0x80)] }) (fun t =>
    t.fb = Frame.blank ∧ t.readV vf = 1 ∧ t.draw) = true := by decide

/-- E6: the sprite FF 81 at (63, 31) wraps. -/
theorem test_drw_wraps : nextIs (run1 0xD012 { regs [(0, 63), (1, 31)] with
      i := 0x300, mem := [(0x300, 0xFF), (0x301, 0x81)] }) (fun t =>
    [63, 0, 1, 2, 3, 4, 5, 6].all (fun x => Frame.pixel t.fb x 31) ∧ !Frame.pixel t.fb 7 31 ∧
      Frame.pixel t.fb 63 0 ∧ Frame.pixel t.fb 6 0 ∧ !Frame.pixel t.fb 0 0 ∧ t.readV vf = 0) = true := by
  decide

theorem test_ret : nextIs (run1 0x00EE { State.reset with
      pc := 0x30A, sp := 1, stack := State.reset.stack.set 0 0x206 }) (fun t =>
    t.pc = 0x206 ∧ t.sp = 0 ∧ t.stack[0] = 0x206) = true := by decide

theorem test_ret_underflow : nextIs (run1 0x00EE { State.reset with st := 3 }) (fun t =>
    t.halted ∧ t.cause = .stackUnderflow 0x200 (some 0x00EE) 0 ∧ t.pc = 0x200 ∧ t.st = 3 ∧ !t.tone) = true := by
  decide

theorem test_jp : nextIs (run1 0x1204 { State.reset with pc := 0x20A }) (fun t => t.pc = 0x204) = true := by
  decide

theorem test_call : nextIs (run1 0x2300 { State.reset with pc := 0xFFE }) (fun t =>
    t.stack[0] = 0x1000 ∧ t.sp = 1 ∧ t.pc = 0x300) = true := by decide

theorem test_call_overflow : nextIs (run1 0x2400 { State.reset with sp := 16 }) (fun t =>
    t.halted ∧ t.cause = .stackOverflow 0x200 (some 0x2400) 16 ∧ t.pc = 0x200) = true := by decide

theorem test_jpV0 : nextIs (run1 0xBFFF (regs [(0, 0xFF)])) (fun t => t.pc = 0x10FE) = true := by decide

theorem test_seImm : nextIs (run1 0x3100 { State.reset with pc := 0x208 }) (fun t => t.pc = 0x20C) = true := by
  decide

theorem test_sneImm : nextIs (run1 0x4207 (regs [(2, 7)])) (fun t => t.pc = 0x202) = true := by decide

theorem test_seReg : nextIs (run1 0x5340 (regs [(3, 0x10), (4, 0x10)])) (fun t => t.pc = 0x204) = true := by
  decide

theorem test_sneReg : nextIs (run1 0x9340 (regs [(3, 0x10), (4, 0x11)])) (fun t => t.pc = 0x204) = true := by
  decide

theorem test_ldImm : nextIs (run1 0x611A State.reset) (fun t => t.readV 1 = 0x1A ∧ t.pc = 0x202) = true := by
  decide

theorem test_addImm_wraps : nextIs (run1 0x7102 (regs [(1, 0xFF), (15, 9)])) (fun t =>
    t.readV 1 = 1 ∧ t.readV vf = 9) = true := by decide

theorem test_ldReg : nextIs (run1 0x8120 (regs [(2, 0x33)])) (fun t => t.readV 1 = 0x33) = true := by decide

theorem test_orReg : nextIs (run1 0x8121 (regs [(1, 0xF0), (2, 0x0F)])) (fun t => t.readV 1 = 0xFF) = true := by
  decide

theorem test_andReg : nextIs (run1 0x8122 (regs [(1, 0xF0), (2, 0x3C)])) (fun t => t.readV 1 = 0x30) = true := by
  decide

theorem test_xorReg : nextIs (run1 0x8113 (regs [(1, 0xF0), (15, 0x55)])) (fun t =>
    t.readV 1 = 0 ∧ t.readV vf = 0x55) = true := by decide

theorem test_addReg : nextIs (run1 0x8114 (regs [(1, 0x80)])) (fun t =>
    t.readV 1 = 0 ∧ t.readV vf = 1) = true := by decide

/-- 95 section 2.5, destination VF: the carry is final. -/
theorem test_addReg_vf : nextIs (run1 0x8F14 (regs [(15, 0xFF), (1, 1)])) (fun t => t.readV vf = 1) = true := by
  decide

theorem test_sub : nextIs (run1 0x8125 (regs [(1, 0), (2, 1)])) (fun t =>
    t.readV 1 = 0xFF ∧ t.readV vf = 0) = true := by decide

/-- 95 section 2.5, destination VF: the difference is final in table order. -/
theorem test_sub_vf : nextIs (run1 0x8F15 (regs [(15, 5), (1, 3)])) (fun t => t.readV vf = 2) = true := by
  decide

theorem test_shr : nextIs (run1 0x8126 (regs [(1, 0xFF)])) (fun t =>
    t.readV 1 = 0x7F ∧ t.readV vf = 1 ∧ t.readV 2 = 0) = true := by decide

/-- 95 section 2.5 with `flag_last`. -/
theorem test_shr_vf_flagLast : nextIs (run1 0x8F06 { regs [(15, 2)] with
      params := { defaultParams with vfDest := .flagLast } }) (fun t => t.readV vf = 0) = true := by decide

theorem test_subn : nextIs (run1 0x8127 (regs [(1, 3), (2, 5)])) (fun t =>
    t.readV 1 = 2 ∧ t.readV vf = 1) = true := by decide

theorem test_shl : nextIs (run1 0x810E (regs [(1, 0x81)])) (fun t =>
    t.readV 1 = 2 ∧ t.readV vf = 1) = true := by decide

/-- R141's example, with the byte 0xA5 supplied. -/
theorem test_rnd : nextIs (run1 0xC10F { State.reset with
      params := { defaultParams with random := .supplied [0xA5] } }) (fun t => t.readV 1 = 5) = true := by
  decide

theorem test_ldI : nextIs (run1 0xA300 State.reset) (fun t => t.i = 0x300) = true := by decide

theorem test_addIVx_wraps : nextIs (run1 0xF11E { regs [(1, 1)] with i := 0xFFFF }) (fun t =>
    t.i = 0 ∧ t.readV vf = 0) = true := by decide

theorem test_ldFVx : nextIs (run1 0xF329 (regs [(3, 0x1A)])) (fun t => t.i = 0x32) = true := by decide

theorem test_ldBVx : nextIs (run1 0xF033 { regs [(0, 0xCF)] with i := 0x300 }) (fun t =>
    Memory.readAll t.mem 0x300 3 = [2, 0, 7] ∧ t.i = 0x300) = true := by decide

theorem test_ldBVx_range : nextIs (run1 0xF033 { regs [(0, 0xCF)] with i := 0xFFE }) (fun t =>
    t.cause = .memoryOutOfRange 0x200 (some 0xF033) 0xFFE 3 ∧ Memory.readAll t.mem 0xFFE 2 = [0, 0]) = true := by
  decide

theorem test_ldMIVx : nextIs (run1 0xF155 { regs [(0, 0x11), (1, 0x22), (2, 0x33)] with i := 0x400 }) (fun t =>
    Memory.readAll t.mem 0x400 3 = [0x11, 0x22, 0]) = true := by decide

theorem test_ldMIVx_top : nextIs (run1 0xFF55 { regs [(15, 7)] with i := 0xFF0 }) (fun t =>
    Memory.read t.mem 0xFFF = 7 ∧ !t.halted) = true := by decide

theorem test_ldVxMI : nextIs (run1 0xF265 { regs [(3, 9)] with
      i := 0x300, mem := [(0x300, 2), (0x302, 7), (0x303, 1)] }) (fun t =>
    t.v.toList.take 4 = [2, 0, 7, 9]) = true := by decide

theorem test_skp : nextIs (run1 0xE19E { regs [(1, 0x17)] with key := State.reset.key.set 7 true }) (fun t =>
    t.pc = 0x204) = true := by decide

theorem test_sknp : nextIs (run1 0xE1A1 (regs [(1, 5)])) (fun t => t.pc = 0x204) = true := by decide

theorem test_ldVxDT : nextIs (run1 0xF107 { State.reset with dt := 4 }) (fun t =>
    t.readV 1 = 4 ∧ t.dt = 3) = true := by decide

theorem test_ldVxK_waits : nextIs (run1 0xF20A { regs [(2, 9)] with dt := 5 }) (fun t =>
    t.pc = 0x200 ∧ t.readV 2 = 9 ∧ t.dt = 4) = true := by decide

theorem test_ldVxK : nextIs (run1 0xF20A { State.reset with
      key := (State.reset.key.set 9 true).set 7 true }) (fun t => t.readV 2 = 7 ∧ t.pc = 0x202) = true := by
  decide

theorem test_ldDTVx : nextIs (run1 0xF015 (regs [(0, 5)])) (fun t => t.dt = 4) = true := by decide

theorem test_ldSTVx : nextIs (run1 0xF018 (regs [(0, 3)])) (fun t => t.st = 2 ∧ t.tone) = true := by decide

/-! ## The step and the host operations -/

/-- A step of a halted core is the first `Step` all the same (R253): a failed load, a step, and the next
load is refused. -/
theorem test_load_after_halted_step :
    perform (.loadProgram (some [])) (State.reset.raise (.loadError .unreadable)).idle = .refused .lateLoad := by
  rfl

/-- The first step after loading an empty image (95 section 2.1). -/
theorem test_unknown : nextIs (step { State.reset with dt := 3 }) (fun t =>
    t.report = some (.unknownOpcode 0x200 0x0000) ∧ t.pc = 0x202 ∧ t.dt = 2) = true := by decide

theorem test_fetch_range : nextIs (step { State.reset with pc := 0xFFF, dt := 5 }) (fun t =>
    t.halted ∧ t.cause = .fetchOutOfRange 0xFFF ∧ t.pc = 0xFFF ∧ t.dt = 5) = true := by decide

theorem test_fetch_last_word : nextIs (run1 0x6000 { regs [(0, 1)] with pc := 0xFFE }) (fun t =>
    t.readV 0 = 0 ∧ t.pc = 0x1000) = true := by decide

theorem test_load_too_long :
    nextIs (perform (.loadProgram (some (List.replicate 3585 0))) State.reset) (fun t =>
    t.halted ∧ t.cause = .loadError (.tooLong 3585) ∧ t.mem = []) = true := by decide +kernel

theorem test_load_late :
    perform (.loadProgram (some [])) { State.reset with stepped := true } = .refused .lateLoad := by rfl

theorem test_load : nextIs (perform (.loadProgram (some [0x63, 0x05])) State.reset) (fun t =>
    Memory.readAll t.mem 0x200 3 = [0x63, 0x05, 0]) = true := by decide

theorem test_initialize : State.initialized { State.reset with halted := true, pc := 7, mem := [(0, 1)] } =
    State.reset := by decide +kernel

theorem test_timerTick_external : nextIs (perform .timerTick { State.reset with
      params := { defaultParams with timerMode := .externalTick }, dt := 5, st := 1 }) (fun t =>
    t.dt = 4 ∧ t.st = 0 ∧ t.tone) = true := by decide

/-! ## Witnesses: a concrete state and operands for the hypotheses of every statement that has any, at
the boundary values of its clauses -/

/-- The reset state with a word where the next step fetches. -/
def at0 (w : Nat) : State := State.reset.withFetchWord 16 w

/-- The parameters with `external_tick`. -/
def extParams : Params := { defaultParams with timerMode := .externalTick }

/-- Does the outcome give a next state? -/
theorem isNext {r : Result} {p : State → Prop} (t : State) (h : r = .next t) (hp : p t) :
    ∃ t, r = .next t ∧ p t := ⟨t, h, hp⟩

theorem witness_DecodeEncodeRoundTrip : WellFormed defaultParams (.sneReg 15 15) = true := by decide

theorem witness_StrictDecodingIsInjective : defaultParams.decodeStrict = true ∧
    decodeWord defaultParams 0x9120 = some (.sneReg 1 2) := by decide

theorem witness_UnknownSpaceInFull : defaultParams.decodeStrict = true ∧ defaultParams.has9xy0 = true := by
  decide

theorem witness_DecodeParameters :
    (({ defaultParams with decodeStrict := false } : Params).decodeStrict = false ∧
      (0x01E0 : Word).toNat / 4096 = 0 ∧ (0x5121 : Word).toNat / 4096 = 5) ∧
    ({ defaultParams with decodeStrict := false } : Params).has9xy0 = true ∧
    (0x9001 : Word).toNat / 4096 = 9 ∧
    ({ defaultParams with has9xy0 := false } : Params).has9xy0 = false := by decide

theorem witness_StepRunsDecodedInstruction :
    Fetches (at0 0x611A) (.ldImm 1 0x1A) 0x611A ∧
    Fetches (({ State.reset with pc := 0xFFE } : State).withFetchWord 16 0x6000) (.ldImm 0 0) 0x6000 :=
  ⟨⟨by decide, by decide, by decide, by decide⟩, ⟨by decide, by decide, by decide, by decide⟩⟩

theorem witness_UnknownWordStep :
    State.reset.halted = false ∧ State.reset.pc.toNat + 1 ≤ 0xFFF ∧
    (0x0000 : Word) = concatBytes (Memory.read State.reset.mem State.reset.pc.toNat)
      (Memory.read State.reset.mem (State.reset.pc.toNat + 1)) ∧
    decodeWord State.reset.params 0x0000 = none ∧ State.reset.params.timerMode = .perStep ∧
    decodeWord extParams 0x0000 = none ∧ extParams.timerMode = .externalTick := by decide

theorem witness_FetchPastMemoryHalts :
    ({ State.reset with pc := 0xFFF } : State).halted = false ∧
    ({ State.reset with pc := 0xFFF } : State).pc.toNat + 1 > 0xFFF := by decide

/-- A core halted by a return with an empty stack. -/
def haltedState : State := State.reset.raise (.stackUnderflow 0x200 (some 0x00EE) 0)

theorem witness_HaltedStepDoesNothing : haltedState.halted = true := by decide

theorem witness_FatalStepsArePrecise : (at0 0x00EE).halted = false ∧
    ∃ t, step (at0 0x00EE) = .next t ∧ t.halted = true :=
  ⟨by decide, isNext (p := fun t => t.halted = true) _ rfl (by decide)⟩

theorem witness_FatalConditionsInFull :
    State.reset.halted = false ∧
    (∃ t, exec .ret State.reset = .next t ∧ t.halted = true) ∧
    (∃ t, exec (.drw 0 0 2) { State.reset with i := 0xFFF } = .next t ∧ t.halted = true) ∧
    ∃ t, exec (.drw 0 0 1) { State.reset with i := 0xFFF } = .next t ∧ t.halted = false :=
  ⟨by decide, isNext _ rfl (by decide), isNext _ rfl (by decide), isNext _ rfl (by decide)⟩

theorem witness_HaltedForEver : haltedState.halted = true ∧ StepCalls 2 haltedState haltedState.idle :=
  ⟨by decide, haltedState.idle, rfl, haltedState.idle, rfl, rfl⟩

theorem witness_CompletedStepTicks :
    (Fetches (at0 0xF015) (.ldDTVx 0) 0xF015 ∧
      ∃ t, step (at0 0xF015) = .next t ∧ t.halted = false) ∧
    (Fetches (at0 0xF018) (.ldSTVx 0) 0xF018 ∧
      ∃ t, step (at0 0xF018) = .next t ∧ t.halted = false) ∧
    (Fetches { at0 0xF018 with params := extParams } (.ldSTVx 0) 0xF018 ∧
      ∃ t, step { at0 0xF018 with params := extParams } = .next t ∧ t.halted = false) ∧
    (Fetches { at0 0xF015 with params := extParams } (.ldDTVx 0) 0xF015 ∧
      ∃ t, step { at0 0xF015 with params := extParams } = .next t ∧ t.halted = false) :=
  ⟨⟨⟨by decide, by decide, by decide, by decide⟩, isNext _ rfl (by decide)⟩,
    ⟨⟨by decide, by decide, by decide, by decide⟩, isNext _ rfl (by decide)⟩,
    ⟨⟨by decide, by decide, by decide, by decide⟩, isNext _ rfl (by decide)⟩,
    ⟨⟨by decide, by decide, by decide, by decide⟩, isNext _ rfl (by decide)⟩⟩

/-- The invariant holds in a state that is not the reset state. -/
theorem witness_StepKeepsInvariant : Inv (at0 0x611A) ∧ ∃ t, step (at0 0x611A) = .next t :=
  ⟨⟨by decide, by decide, by decide, by decide, by decide, by decide⟩, _, rfl⟩

theorem witness_HostOperationsKeepInvariant :
    Inv (at0 0x611A) ∧ ∃ t, perform .ackFrame (at0 0x611A) = .next t :=
  ⟨witness_StepKeepsInvariant.1, _, rfl⟩

/-- One instruction for each component that the statement says who writes. -/
theorem witness_OnlyNamedWritersChangeState :
    State.reset.halted = false ∧
    (∃ t, exec (.ldBVx 1) { regs [(1, 207)] with i := 0x300 } = .next t ∧ t.halted = false ∧
      ¬Field.mem.Same { regs [(1, 207)] with i := 0x300 } t) ∧
    (∃ t, exec (.ldI 7) State.reset = .next t ∧ t.halted = false ∧ ¬Field.i.Same State.reset t) ∧
    (∃ t, exec (.call 7) State.reset = .next t ∧ t.halted = false ∧
      ¬Field.stack.Same State.reset t ∧ ¬Field.sp.Same State.reset t) ∧
    (∃ t, exec (.ldDTVx 1) (regs [(1, 5)]) = .next t ∧ t.halted = false ∧
      ¬Field.dt.Same (regs [(1, 5)]) t) ∧
    (∃ t, exec (.ldSTVx 1) (regs [(1, 5)]) = .next t ∧ t.halted = false ∧
      ¬Field.st.Same (regs [(1, 5)]) t) ∧
    (∃ t, exec (.drw 0 0 1) State.reset = .next t ∧ t.halted = false ∧
      ¬Field.fb.Same State.reset t ∧ ¬Field.draw.Same State.reset t) ∧
    (∃ t, exec .cls { State.reset with draw := true } = .next t ∧ t.halted = false) ∧
    ∃ t, exec (.rnd 1 0) State.reset = .next t ∧ t.halted = false ∧
      ¬Field.draws.Same State.reset t :=
  ⟨by decide,
    ⟨_, rfl, by decide, fun h => absurd (h 0x300) (by decide)⟩,
    ⟨_, rfl, by decide, by change ¬(_ = _); decide⟩,
    ⟨_, rfl, by decide, fun h => absurd (h 0) (by decide), by change ¬(_ = _); decide⟩,
    ⟨_, rfl, by decide, by change ¬(_ = _); decide⟩,
    ⟨_, rfl, by decide, by change ¬(_ = _); decide⟩,
    ⟨_, rfl, by decide, fun h => absurd (h 0 0) (by decide), by change ¬(_ = _); decide⟩,
    ⟨_, rfl, by decide⟩,
    ⟨_, rfl, by decide, by change ¬(_ = _); decide⟩⟩

theorem witness_OnlyDestinationRegistersChange : ∃ t, exec (.ldVxMI 3) State.reset = .next t :=
  ⟨_, rfl⟩

/-- A return from the full stack and a key test, whose clauses have premises of their own. -/
theorem witness_CommittedPcByClass :
    (∃ t, execUnknown 0x5001 State.reset = .next t) ∧
    (∃ t, exec .ret { State.reset with sp := 16 } = .next t ∧ t.halted = false ∧
      (15 : Fin 16).val + 1 = ({ State.reset with sp := 16 } : State).sp.val) ∧
    ∃ t, exec (.skp 1) (regs [(1, 0x17)]) = .next t ∧ t.halted = false ∧
      (7 : Key).val = ((regs [(1, 0x17)]).readV 1).toNat % 16 :=
  ⟨⟨_, rfl⟩, ⟨_, rfl, by decide⟩, ⟨_, rfl, by decide⟩⟩

/-- SP = 1: slot 0 is live, slot 1 is stale and differs. -/
theorem witness_StaleStackSlotsAreInvisible :
    SameLiveStack { State.reset with sp := 1 }
      { State.reset with sp := 1, stack := State.reset.stack.set 1 0x300 } ∧
    ∃ t, step { State.reset with sp := 1 } = .next t :=
  ⟨⟨State.reset.stack.set 1 0x300, rfl, by decide⟩, _, rfl⟩

theorem witness_ClearScreen : defaultParams.decodeStrict = true ∧
    decodeWord defaultParams 0x00E0 = some .cls := by decide

/-- The last byte of memory, one byte past it, and no byte at the largest I. -/
theorem witness_DrawSpriteXorsAndCollides :
    AccessFits { State.reset with i := 0xFFF } (BitVec.toNat (1 : Nibble)) ∧
    AccessFits { State.reset with i := 0xFFFF } (BitVec.toNat (0 : Nibble)) ∧
    ¬AccessFits { State.reset with i := 0xFFF } (BitVec.toNat (2 : Nibble)) :=
  ⟨.inr (by decide), .inl (by decide), by unfold AccessFits; decide⟩

/-- The glyph of 0 at (5, 5) on an empty screen; every pixel it covers is clear. -/
theorem witness_DrawingTwiceRestores :
    ∃ t, exec (.drw 0 1 5) (regs [(0, 5), (1, 5)]) = .next t ∧
      (AccessFits (regs [(0, 5), (1, 5)]) (BitVec.toNat (5 : Nibble)) ∧
      (t.readV 0).toNat % 64 = ((regs [(0, 5), (1, 5)]).readV 0).toNat % 64 ∧
      (t.readV 1).toNat % 32 = ((regs [(0, 5), (1, 5)]).readV 1).toNat % 32 ∧
      ∀ px py, SpriteCovers (regs [(0, 5), (1, 5)]) 0 1 (BitVec.toNat (5 : Nibble)) px py →
        Frame.pixel (regs [(0, 5), (1, 5)]).fb px py = false) :=
  isNext _ rfl ⟨.inr (by decide), by decide, by decide, fun px py _ => by
    simp [regs, State.writeV, State.reset, Frame.pixel]⟩

theorem witness_ReturnFromSubroutine :
    decodeWord defaultParams 0x00EE = some .ret ∧
    ({ State.reset with sp := 1 } : State).sp.val = (0 : Fin 16).val + 1 ∧
    ({ State.reset with sp := 16 } : State).sp.val = (15 : Fin 16).val + 1 ∧
    State.reset.sp.val = 0 := by decide

theorem witness_CallSubroutine :
    State.reset.sp.val = (0 : Fin 16).val ∧
    ({ State.reset with sp := 15 } : State).sp.val = (15 : Fin 16).val ∧
    ({ State.reset with sp := 16 } : State).sp.val = 16 := by decide

theorem witness_CallThenReturn :
    ∃ t, exec (.call 0x300) { State.reset with sp := 15 } = .next t ∧
      (({ State.reset with sp := 15 } : State).sp.val < 16 ∧
      ({ t with pc := 0x30A } : State).sp = t.sp ∧
      ∀ k : Fin 16, k.val < t.sp.val → ({ t with pc := 0x30A } : State).stack[k] = t.stack[k]) :=
  isNext _ rfl ⟨by decide, rfl, fun _ _ => rfl⟩

theorem witness_SkipIfRegistersEqual : defaultParams.decodeStrict = true ∧
    BitVec.toNat (0x5001 : Word) / 4096 = 5 ∧ BitVec.toNat (0x5001 : Word) % 16 ≠ 0 := by decide

theorem witness_SkipIfRegistersDiffer :
    ({ defaultParams with has9xy0 := false } : Params).has9xy0 = false ∧
    BitVec.toNat (0x9120 : Word) / 4096 = 9 := by decide

/-- The clauses of `8XY5`, `8XY6`, `8XY7` and `8XYE`: a destination that is not VF, and VF under each
value of ALU_VF_DEST. -/
theorem witness_ResultAndFlag :
    (1 : Reg) ≠ vf ∧ State.reset.params.vfDest = .tableOrder ∧
    ({ State.reset with params := { defaultParams with vfDest := .flagLast } } : State).params.vfDest =
      .flagLast := by decide

theorem witness_AddWithCarryOut : (1 : Reg) ≠ vf := by decide

theorem witness_RandomMasked :
    State.reset.params.random = .free ∧
    ({ defaultParams with random := .supplied [0xA5] } : Params).random = .supplied [0xA5] ∧
    [(0xA5 : Byte)][State.reset.draws]? = some 0xA5 ∧ (0x0F : Byte).getLsbD 7 = false := by decide

theorem witness_StoreDecimalDigits :
    ({ State.reset with i := 0xFFD } : State).i.toNat + 2 ≤ 0xFFF ∧
    ({ State.reset with i := 0xFFE } : State).i.toNat + 2 > 0xFFF := by decide

theorem witness_StoreRegisterBlock :
    ({ State.reset with i := 0xFF0 } : State).i.toNat + Fin.val (15 : Reg) ≤ 0xFFF ∧
    ({ State.reset with i := 0xFF1 } : State).i.toNat + Fin.val (15 : Reg) > 0xFFF ∧
    (15 : Reg) ≤ 15 := by decide

theorem witness_LoadRegisterBlock :
    ({ State.reset with i := 0xFFF } : State).i.toNat + Fin.val (0 : Reg) ≤ 0xFFF ∧
    ({ State.reset with i := 0xFFF } : State).i.toNat + Fin.val (1 : Reg) > 0xFFF ∧
    (0 : Reg) ≤ 0 ∧ (0 : Reg) < 1 := by decide

theorem witness_SkipOnKey : (7 : Key).val = ((regs [(1, 0x17)]).readV 1).toNat % 16 := by decide

theorem witness_ReadDelayTimer :
    Fetches (at0 0xF107) (.ldVxDT 1) 0xF107 ∧ (at0 0xF107).params.timerMode = .perStep ∧
    ∃ t, step { regs [(1, 4)] with mem := [(0x200, 0xF1), (0x201, 0x15), (0x202, 0xF2), (0x203, 0x07)] } =
        .next t ∧
      (Fetches { regs [(1, 4)] with mem := [(0x200, 0xF1), (0x201, 0x15), (0x202, 0xF2), (0x203, 0x07)] }
        (.ldDTVx 1) 0xF115 ∧
      ((regs [(1, 4)]).readV 1).toNat ≥ 1 ∧ Fetches t (.ldVxDT 2) 0xF207) :=
  ⟨⟨by decide, by decide, by decide, by decide⟩, by decide, isNext _ rfl
    ⟨⟨by decide, by decide, by decide, by decide⟩, by decide, ⟨by decide, by decide, by decide, by decide⟩⟩⟩

theorem witness_WaitForKey :
    (∀ k : Key, State.reset.key[k] = false) ∧
    (((State.reset.key.set 9 true).set 7 true)[(7 : Key)] = true ∧
      ∀ j : Key, j < 7 → ((State.reset.key.set 9 true).set 7 true)[j] = false) ∧
    Fetches (at0 0xF20A) (.ldVxK 2) 0xF20A ∧ (∀ k : Key, (at0 0xF20A).key[k] = false) ∧
    (at0 0xF20A).params.timerMode = .perStep :=
  ⟨by decide, by decide, ⟨by decide, by decide, by decide, by decide⟩, by decide, by decide⟩

theorem witness_SetDelayTimer :
    Fetches (at0 0xF015) (.ldDTVx 0) 0xF015 ∧ (at0 0xF015).params.timerMode = .perStep :=
  ⟨⟨by decide, by decide, by decide, by decide⟩, by decide⟩

theorem witness_SetSoundTimer :
    Fetches (at0 0xF018) (.ldSTVx 0) 0xF018 ∧ (at0 0xF018).params.timerMode = .perStep :=
  ⟨⟨by decide, by decide, by decide, by decide⟩, by decide⟩

theorem witness_InitializeFromAnyState : haltedState.params.fbReset = .zero := by decide

theorem witness_LoadProgramOutcomes :
    State.reset.stepped = false ∧ (List.replicate 3584 (0 : Byte)).length ≤ 3584 ∧
    (List.replicate 3585 (0 : Byte)).length > 3584 ∧
    ({ State.reset with stepped := true } : State).stepped = true ∧
    [(0x63 : Byte), 0x05][1]? = some 0x05 ∧ ∃ t, step State.reset = .next t :=
  ⟨rfl, by rw [List.length_replicate], by rw [List.length_replicate]; decide, rfl, rfl, _, rfl⟩

theorem witness_HostLatchOperations :
    ({ State.reset with params := extParams } : State).halted = false ∧
    ({ State.reset with params := extParams } : State).params.timerMode = .externalTick ∧
    haltedState.halted = true ∧ State.reset.params.timerMode = .perStep := by decide

/-- The launch state of the one-word program `F20A`. -/
def waitLaunch : State :=
  { State.initialized State.reset with
    mem := Memory.writeAll (State.initialized State.reset).mem programStart [0xF2, 0x0A], report := none }

/-- Keys 7 and 9. -/
def keys79 : Vector Bool 16 := (State.reset.key.set 9 true).set 7 true

theorem next_of_nextIs {r : Result} {p : State → Bool} (h : nextIs r p = true) :
    ∃ t, r = .next t ∧ p t = true := by
  cases r with
  | next t => exact ⟨t, rfl, h⟩
  | fault f => cases f
  | refused q => cases h

theorem test_wait_ends : nextIs (step { waitLaunch with key := keys79 })
    (fun u => decide (u.readV 2 = 7) && !u.halted) = true := by decide +kernel

/-- The end of program P4 (95 section 2): `FX0A` at launch, the host presses keys 7 and 9 before the first
step, and acknowledges the frame after it. -/
theorem witness_RunsKeepInvariant :
    Launch waitLaunch ∧ ∃ t, Run [[.setKeys keys79]] [.ackFrame] waitLaunch t := by
  refine ⟨⟨State.reset, some [0xF2, 0x0A], rfl⟩, ?_⟩
  obtain ⟨u, hu, hp⟩ := next_of_nextIs test_wait_ends
  have hhalt : u.halted = false := by simpa using (Bool.and_eq_true_iff.mp hp).2
  exact ⟨{ u with draw := false }, u, ⟨by decide, _, u, ⟨trivial, _, rfl, rfl⟩, hu, rfl⟩,
    ⟨trivial, _, rfl, rfl⟩, fun h => by rw [hhalt] at h; cases h⟩

theorem witness_OnlyInitializeClearsHalted :
    haltedState.halted = true ∧ HostOp.ackFrame ≠ .init ∧
      (∃ t, perform .ackFrame haltedState = .next t) ∧
      ∀ source, HostOp.ackFrame ≠ .loadProgram source :=
  ⟨by decide, by decide, ⟨_, rfl⟩, fun _ h => nomatch h⟩

end Sys2Proof.Tests
end

section
/-! SUPPORT. Frames (`SameBut`): composing two of them, and the frame of an instruction's default end. -/

namespace Sys2Proof

open Machine

theorem Field.Same.trans {f : Field} {s t u : State} (hst : f.Same s t) (htu : f.Same t u) :
    f.Same s u := by
  cases f with
  | mem | v | stack | key => exact fun k => (htu k).trans (hst k)
  | fb => exact fun x y => (htu x y).trans (hst x y)
  | _ => exact Eq.trans htu hst

/-- Two changes in a row change at most what either changes. -/
theorem SameBut.trans {l₁ l₂ : List Field} {s t u : State} (hst : SameBut l₁ s t)
    (htu : SameBut l₂ t u) : SameBut (l₁ ++ l₂) s u := by
  intro f hf
  obtain ⟨h₁, h₂⟩ := not_or.mp (List.mem_append.not.mp hf)
  exact (hst f h₁).trans (htu f h₂)

/-- `pc0 + 2` is all that the default end of a step commits (R81). -/
theorem sameBut_advance (s : State) : SameBut [.pc] s s.advance := by
  intro f hf
  cases f with
  | pc => exact absurd (List.mem_singleton_self _) hf
  | mem | v | stack | key => exact fun _ => rfl
  | fb => exact fun _ _ => rfl
  | _ => rfl

end Sys2Proof
end

section
/-! PROOFS of the display family (spec 40): `00E0`. -/

namespace Sys2Proof

open Machine

/-! ### The words that decode to `00E0` -/

theorem decodeGroup0_eq_cls {p : Params} {w : Word} :
    decodeGroup0 p w = some .cls ↔
      (p.decodeStrict = true → fieldX w = 0) ∧ (fieldNN w).toNat = 0xE0 := by
  unfold decodeGroup0
  split
  · next h => simp_all
  · next h =>
    have hx : p.decodeStrict = true → fieldX w = 0 := by simpa using h
    split <;> simp_all

theorem decodeGroup8_ne_cls (w : Word) : decodeGroup8 w ≠ some .cls := by
  unfold decodeGroup8
  split <;> simp

theorem decodeGroupE_ne_cls (w : Word) : decodeGroupE w ≠ some .cls := by
  unfold decodeGroupE
  split <;> simp

theorem decodeGroupF_ne_cls (w : Word) : decodeGroupF w ≠ some .cls := by
  unfold decodeGroupF
  split <;> simp

/-- Only group 0 holds `00E0` (R74). -/
theorem decodeWord_eq_cls {p : Params} {w : Word} :
    decodeWord p w = some .cls ↔ fieldG w = 0 ∧ decodeGroup0 p w = some .cls := by
  unfold decodeWord
  split <;> simp_all [decodeGroup8_ne_cls, decodeGroupE_ne_cls, decodeGroupF_ne_cls]

/-- Group, X and NN are the whole word (R71). -/
theorem toNat_eq_fields (w : Word) :
    w.toNat = fieldG w * 4096 + (fieldX w).val * 256 + (fieldNN w).toNat := by
  have := w.isLt
  simp only [fieldG, fieldX, fieldNN, BitVec.toNat_ofNat]
  omega

theorem eq_00E0_of_decodeWord {p : Params} {w : Word} (hp : p.decodeStrict = true)
    (h : decodeWord p w = some .cls) : w = 0x00E0 := by
  obtain ⟨hg, h0⟩ := decodeWord_eq_cls.mp h
  obtain ⟨hx, hnn⟩ := decodeGroup0_eq_cls.mp h0
  apply BitVec.eq_of_toNat_eq
  rw [toNat_eq_fields, hg, hx hp, hnn]
  rfl

/-! ### What `00E0` changes -/

theorem exec_cls (s : State) :
    exec .cls s = .next { s with fb := Frame.blank, draw := true }.advance := rfl

theorem sameBut_setFrame (s : State) (fb : Frame) (draw : Bool) :
    SameBut [.fb, .draw] s { s with fb := fb, draw := draw } := by
  intro f hf
  cases f with
  | fb | draw => simp at hf
  | mem | v | stack | key => exact fun _ => rfl
  | _ => rfl

/-- Settles O22: the words by the decoder's groups, the frame by composing the two changes. -/
theorem clearScreen : Obligations.ClearScreen := by
  refine ⟨fun p => ?_, fun p w hp h => eq_00E0_of_decodeWord hp h, fun s => ?_⟩
  · exact decodeWord_eq_cls.mpr ⟨by decide, decodeGroup0_eq_cls.mpr ⟨fun _ => by decide, by decide⟩⟩
  · exact ⟨_, exec_cls s, Frame.pixel_blank, rfl, rfl,
      (sameBut_setFrame s Frame.blank true).trans (sameBut_advance _)⟩

end Sys2Proof
end

section
/-! PROOFS of the flow family (spec 41): `1NNN`. -/

namespace Sys2Proof

open Machine

/-- Group 1 is `1NNN` alone, under every parameter choice (R74). -/
theorem decodeWord_of_fieldG_eq_one {p : Params} {w : Word} (h : fieldG w = 0x1) :
    decodeWord p w = some (.jp (fieldNNN w)) := by
  simp only [decodeWord, h]

theorem decodeWord_wordNNN_one (p : Params) (nnn : Addr) :
    decodeWord p (wordNNN 0x1 nnn) = some (.jp nnn) := by
  rw [decodeWord_of_fieldG_eq_one (fieldG_wordNNN (by decide) nnn), fieldNNN_wordNNN (by decide)]

/-- A 12-bit address keeps its value as a 16-bit word (R9 `zext`). -/
@[simp] theorem toNat_addrOf (nnn : Addr) : (addrOf nnn).toNat = nnn.toNat :=
  BitVec.toNat_setWidth_of_le (by decide)

/-- A jump commits PC alone. -/
theorem sameBut_goto (s : State) (target : Word) : SameBut [.pc] s (s.goto target) := by
  intro f hf
  cases f with
  | pc => exact absurd (List.mem_singleton_self _) hf
  | mem | v | stack | key => exact fun _ => rfl
  | fb => exact fun _ _ => rfl
  | _ => rfl

theorem exec_jp (nnn : Addr) (s : State) : exec (.jp nnn) s = .next (s.goto (addrOf nnn)) := rfl

/-- Settles O26: the word is the encoder's `1NNN`, and the state after it is a jump to NNN. -/
theorem jump : Obligations.Jump :=
  ⟨decodeWord_wordNNN_one,
    fun s nnn => ⟨s.goto (addrOf nnn), exec_jp nnn s, toNat_addrOf nnn, sameBut_goto s _⟩⟩

end Sys2Proof
end

section
/-! PROOFS of the skip family (spec 42): `3XNN`, `4XNN`, `5XY0`. -/

namespace Sys2Proof

open Machine

/-! ### The words of groups 3, 4 and 5 -/

/-- Group 3 is `3XNN` alone, under every parameter choice (R74). -/
theorem decodeWord_of_fieldG_eq_three {p : Params} {w : Word} (h : fieldG w = 0x3) :
    decodeWord p w = some (.seImm (fieldX w) (fieldNN w)) := by
  simp only [decodeWord, h]

/-- Group 4 is `4XNN` alone, under every parameter choice (R74). -/
theorem decodeWord_of_fieldG_eq_four {p : Params} {w : Word} (h : fieldG w = 0x4) :
    decodeWord p w = some (.sneImm (fieldX w) (fieldNN w)) := by
  simp only [decodeWord, h]

/-- Group 5 is `5XY0`, where its low nibble fits (R74, R75). -/
theorem decodeWord_of_fieldG_eq_five {p : Params} {w : Word} (h : fieldG w = 0x5) :
    decodeWord p w =
      if lowNibbleFits p w then some (.seReg (fieldX w) (fieldY w)) else none := by
  simp only [decodeWord, h]

theorem decodeWord_wordXNN_three (p : Params) (x : Reg) (nn : Byte) :
    decodeWord p (wordXNN 0x3 x nn) = some (.seImm x nn) := by
  rw [decodeWord_of_fieldG_eq_three (fieldG_wordXNN (by decide) x nn),
    fieldX_wordXNN (by decide), fieldNN_wordXNN (by decide)]

theorem decodeWord_wordXNN_four (p : Params) (x : Reg) (nn : Byte) :
    decodeWord p (wordXNN 0x4 x nn) = some (.sneImm x nn) := by
  rw [decodeWord_of_fieldG_eq_four (fieldG_wordXNN (by decide) x nn),
    fieldX_wordXNN (by decide), fieldNN_wordXNN (by decide)]

theorem fieldN_eq_zero {w : Word} : fieldN w = 0#4 ↔ w.toNat % 16 = 0 := by
  rw [← BitVec.toNat_inj, fieldN, BitVec.toNat_ofNat]; rfl

/-- DECODE_STRICT asks for a zero low nibble, and without it every nibble fits (R75). -/
theorem lowNibbleFits_iff {p : Params} {w : Word} :
    lowNibbleFits p w = true ↔ (p.decodeStrict = true → w.toNat % 16 = 0) := by
  cases hp : p.decodeStrict <;> simp [lowNibbleFits, hp, fieldN_eq_zero]

/-- A word `GXY0` fits under every parameter choice. -/
theorem lowNibbleFits_wordXYN_zero (p : Params) {g : Nat} (hg : g < 16) (x y : Reg) :
    lowNibbleFits p (wordXYN g x y 0) = true :=
  lowNibbleFits_iff.mpr fun _ => fieldN_eq_zero.mp (fieldN_wordXYN hg x y 0)

theorem decodeWord_wordXYN_five (p : Params) (x y : Reg) :
    decodeWord p (wordXYN 0x5 x y 0) = some (.seReg x y) := by
  rw [decodeWord_of_fieldG_eq_five (fieldG_wordXYN (by decide) x y 0),
    if_pos (lowNibbleFits_wordXYN_zero p (by decide) x y),
    fieldX_wordXYN (by decide), fieldY_wordXYN (by decide)]

theorem decodeWord_eq_none_of_strict_five {p : Params} {w : Word} (hp : p.decodeStrict = true)
    (hg : fieldG w = 0x5) (hn : w.toNat % 16 ≠ 0) : decodeWord p w = none := by
  rw [decodeWord_of_fieldG_eq_five hg, if_neg fun h => hn (lowNibbleFits_iff.mp h hp)]

/-! ### What a skip changes -/

theorem exec_seImm (x : Reg) (nn : Byte) (s : State) :
    exec (.seImm x nn) s = .next (s.skipIf (s.readV x == nn)) := rfl

theorem exec_sneImm (x : Reg) (nn : Byte) (s : State) :
    exec (.sneImm x nn) s = .next (s.skipIf (s.readV x != nn)) := rfl

theorem exec_seReg (x y : Reg) (s : State) :
    exec (.seReg x y) s = .next (s.skipIf (s.readV x == s.readV y)) := rfl

/-- A skip is a jump to `pc0 + 4` or `pc0 + 2` (R120), so it commits PC alone. -/
theorem sameBut_skipIf (s : State) (c : Bool) : SameBut [.pc] s (s.skipIf c) :=
  sameBut_goto s _

/-- An instruction that ends in `Skip(c)` does what the rules of spec 42 say, for the proposition `P`
that `c` tests. -/
theorem skip_of_exec_eq_skipIf {i : Instr} {s : State} {c : Bool} {P : Prop} [Decidable P]
    (he : exec i s = .next (s.skipIf c)) (hc : c = true ↔ P) :
    ∃ t, exec i s = .next t ∧ (t.pc = if P then s.pc + 4 else s.pc + 2) ∧ SameBut [.pc] s t :=
  ⟨s.skipIf c, he, if_congr hc rfl rfl, sameBut_skipIf s c⟩

/-- The two ends of a skip differ, so PC tells whether it skipped. -/
theorem skipIf_pc_eq_add_four {s : State} {c : Bool} : (s.skipIf c).pc = s.pc + 4 ↔ c = true := by
  cases c <;> simp

/-- Settles O30: the word is the encoder's `3XNN`, and the state after it is `Skip(VX == NN)`. -/
theorem skipIfEqualImmediate : Obligations.SkipIfEqualImmediate :=
  ⟨decodeWord_wordXNN_three,
    fun s x nn => skip_of_exec_eq_skipIf (exec_seImm x nn s) beq_iff_eq⟩

/-- Settles O31: `4XNN` is `Skip(VX != NN)`, and its condition is the negation of that of `3XNN`. -/
theorem skipIfNotEqualImmediate : Obligations.SkipIfNotEqualImmediate := by
  refine ⟨decodeWord_wordXNN_four,
    fun s x nn => skip_of_exec_eq_skipIf (exec_sneImm x nn s) bne_iff_ne,
    fun s x nn => ⟨_, _, exec_sneImm x nn s, exec_seImm x nn s, ?_⟩⟩
  rw [Ne, skipIf_pc_eq_add_four, skipIf_pc_eq_add_four, bne_iff_ne, beq_iff_eq]

/-- Settles O32: the word is the encoder's `5XY0`, strict decoding refuses the others of group 5, and
the state after it is `Skip(VX == VY)`. -/
theorem skipIfRegistersEqual : Obligations.SkipIfRegistersEqual :=
  ⟨decodeWord_wordXYN_five,
    fun _ _ hp hg hn => decodeWord_eq_none_of_strict_five hp hg hn,
    fun s x y => skip_of_exec_eq_skipIf (exec_seReg x y s) beq_iff_eq⟩

end Sys2Proof
end

section
/-! PROOFS of the ALU family (spec 43): `6XNN`, `7XNN`, `8XY0`. -/

namespace Sys2Proof

open Machine

/-! ### The words of groups 6, 7 and 8 -/

/-- Group 6 is `6XNN` alone, under every parameter choice (R74). -/
theorem decodeWord_of_fieldG_eq_six {p : Params} {w : Word} (h : fieldG w = 0x6) :
    decodeWord p w = some (.ldImm (fieldX w) (fieldNN w)) := by
  simp only [decodeWord, h]

/-- Group 7 is `7XNN` alone, under every parameter choice (R74). -/
theorem decodeWord_of_fieldG_eq_seven {p : Params} {w : Word} (h : fieldG w = 0x7) :
    decodeWord p w = some (.addImm (fieldX w) (fieldNN w)) := by
  simp only [decodeWord, h]

/-- Group 8 is told apart by its low nibble, under every parameter choice (R74). -/
theorem decodeWord_of_fieldG_eq_eight {p : Params} {w : Word} (h : fieldG w = 0x8) :
    decodeWord p w = decodeGroup8 w := by
  simp only [decodeWord, h]

theorem decodeGroup8_of_fieldN_eq_zero {w : Word} (h : fieldN w = 0) :
    decodeGroup8 w = some (.ldReg (fieldX w) (fieldY w)) := by
  simp [decodeGroup8, h]

theorem decodeWord_wordXNN_six (p : Params) (x : Reg) (nn : Byte) :
    decodeWord p (wordXNN 0x6 x nn) = some (.ldImm x nn) := by
  rw [decodeWord_of_fieldG_eq_six (fieldG_wordXNN (by decide) x nn),
    fieldX_wordXNN (by decide), fieldNN_wordXNN (by decide)]

theorem decodeWord_wordXNN_seven (p : Params) (x : Reg) (nn : Byte) :
    decodeWord p (wordXNN 0x7 x nn) = some (.addImm x nn) := by
  rw [decodeWord_of_fieldG_eq_seven (fieldG_wordXNN (by decide) x nn),
    fieldX_wordXNN (by decide), fieldNN_wordXNN (by decide)]

theorem decodeWord_wordXYN_eight_zero (p : Params) (x y : Reg) :
    decodeWord p (wordXYN 0x8 x y 0) = some (.ldReg x y) := by
  rw [decodeWord_of_fieldG_eq_eight (fieldG_wordXYN (by decide) x y 0),
    decodeGroup8_of_fieldN_eq_zero (fieldN_wordXYN (by decide) x y 0),
    fieldX_wordXYN (by decide), fieldY_wordXYN (by decide)]

/-! ### What a write of VX changes -/

theorem exec_ldImm (x : Reg) (nn : Byte) (s : State) :
    exec (.ldImm x nn) s = .next (s.writeV x nn).advance := rfl

theorem exec_addImm (x : Reg) (nn : Byte) (s : State) :
    exec (.addImm x nn) s = .next (s.writeV x (s.readV x + nn)).advance := rfl

theorem exec_ldReg (x y : Reg) (s : State) :
    exec (.ldReg x y) s = .next (s.writeV x (s.readV y)).advance := rfl

theorem sameBut_writeV (s : State) (x : Reg) (b : Byte) : SameBut [.v] s (s.writeV x b) := by
  intro f hf
  cases f with
  | v => exact absurd (List.mem_singleton_self _) hf
  | mem | stack | key => exact fun _ => rfl
  | fb => exact fun _ _ => rfl
  | _ => rfl

theorem regsSameBut_writeV (s : State) (x : Reg) (b : Byte) : RegsSameBut [x] s (s.writeV x b) :=
  fun _ hk => s.readV_writeV_of_ne b (List.ne_of_not_mem_cons hk)

/-- An instruction that ends in `V[X] <- b` does what the rules of spec 43 without a flag say, for any
property `P` that `b` has. -/
theorem write_of_exec_eq_writeV {i : Instr} {s : State} {x : Reg} {b : Byte} {P : Byte → Prop}
    (he : exec i s = .next (s.writeV x b).advance) (hb : P b) :
    ∃ t, exec i s = .next t ∧ P (t.readV x) ∧ t.pc = s.pc + 2 ∧
      RegsSameBut [x] s t ∧ SameBut [.v, .pc] s t :=
  ⟨(s.writeV x b).advance, he, (s.readV_writeV_self x b).symm ▸ hb, rfl, regsSameBut_writeV s x b,
    (sameBut_writeV s x b).trans (sameBut_advance _)⟩

/-- Settles O34: the word is the encoder's `6XNN`, and the state after it is the write of NN to VX. -/
theorem loadImmediate : Obligations.LoadImmediate :=
  ⟨decodeWord_wordXNN_six,
    fun s x nn => write_of_exec_eq_writeV (P := (· = nn)) (exec_ldImm x nn s) rfl⟩

/-- Settles O35: the word is the encoder's `7XNN`, and the state after it is the write of the 8-bit sum
to VX, which is the sum modulo 256. -/
theorem addImmediateWraps : Obligations.AddImmediateWraps :=
  ⟨decodeWord_wordXNN_seven,
    fun s x nn => write_of_exec_eq_writeV
      (P := fun b => b.toNat = ((s.readV x).toNat + nn.toNat) % 256)
      (exec_addImm x nn s) (BitVec.toNat_add _ _)⟩

/-- Settles O36: the word is the encoder's `8XY0`, and the state after it is the write of VY to VX. -/
theorem registerMove : Obligations.RegisterMove :=
  ⟨decodeWord_wordXYN_eight_zero,
    fun s x y => write_of_exec_eq_writeV (P := (· = s.readV y)) (exec_ldReg x y s) rfl⟩

end Sys2Proof
end

section
/-! PROOFS of the index family (spec 44): `ANNN`, `FX29`. -/

namespace Sys2Proof

open Machine

/-! ### The words of groups A and F -/

/-- Group A is `ANNN` alone, under every parameter choice (R74). -/
theorem decodeWord_of_fieldG_eq_ten {p : Params} {w : Word} (h : fieldG w = 0xA) :
    decodeWord p w = some (.ldI (fieldNNN w)) := by
  simp only [decodeWord, h]

/-- Group F is told apart by its low byte, under every parameter choice (R74). -/
theorem decodeWord_of_fieldG_eq_fifteen {p : Params} {w : Word} (h : fieldG w = 0xF) :
    decodeWord p w = decodeGroupF w := by
  simp only [decodeWord, h]

theorem decodeGroupF_of_fieldNN_eq_0x29 {w : Word} (h : fieldNN w = 0x29) :
    decodeGroupF w = some (.ldFVx (fieldX w)) := by
  simp [decodeGroupF, h]

theorem decodeWord_wordNNN_ten (p : Params) (nnn : Addr) :
    decodeWord p (wordNNN 0xA nnn) = some (.ldI nnn) := by
  rw [decodeWord_of_fieldG_eq_ten (fieldG_wordNNN (by decide) nnn), fieldNNN_wordNNN (by decide)]

theorem decodeWord_wordXNN_fifteen_0x29 (p : Params) (x : Reg) :
    decodeWord p (wordXNN 0xF x 0x29) = some (.ldFVx x) := by
  rw [decodeWord_of_fieldG_eq_fifteen (fieldG_wordXNN (by decide) x _),
    decodeGroupF_of_fieldNN_eq_0x29 (fieldNN_wordXNN (by decide) x _), fieldX_wordXNN (by decide)]

/-- `GXNN` as its fixed nibbles with X filled in. -/
theorem ofNat_fixed_add_eq_wordXNN (g : Nat) (x : Reg) (nn : Byte) :
    BitVec.ofNat 16 (g * 4096 + nn.toNat + x.val * 256) = wordXNN g x nn :=
  congrArg (BitVec.ofNat 16) (Nat.add_right_comm _ _ _)

/-! ### What a write of I changes -/

theorem exec_ldI (nnn : Addr) (s : State) :
    exec (.ldI nnn) s = .next { s with i := addrOf nnn }.advance := rfl

theorem exec_ldFVx (x : Reg) (s : State) :
    exec (.ldFVx x) s = .next { s with i := glyphAddr (lowNibble (s.readV x)) }.advance := rfl

theorem sameBut_setI (s : State) (w : Word) : SameBut [.i] s { s with i := w } := by
  intro f hf
  cases f with
  | i => exact absurd (List.mem_singleton_self _) hf
  | mem | v | stack | key => exact fun _ => rfl
  | fb => exact fun _ _ => rfl
  | _ => rfl

/-- An instruction that ends in `I <- w` does what the rules of spec 44 without a memory access say,
for the number `n` that `w` holds. -/
theorem index_of_exec_eq_setI {ins : Instr} {s : State} {w : Word} {n : Nat}
    (he : exec ins s = .next { s with i := w }.advance) (hw : w.toNat = n) :
    ∃ t, exec ins s = .next t ∧ t.i.toNat = n ∧ t.pc = s.pc + 2 ∧ SameBut [.i, .pc] s t :=
  ⟨{ s with i := w }.advance, he, hw, rfl, (sameBut_setI s w).trans (sameBut_advance _)⟩

/-- The glyphs stand 5 bytes apart from address 0 on (R67), and 16 of them do not wrap. -/
theorem toNat_glyphAddr (d : Fin 16) : (glyphAddr d).toNat = d.val * 5 := by
  have := d.isLt
  rw [glyphAddr, fontBase_eq, glyphBytes_eq, BitVec.toNat_ofNat]
  omega

/-- Settles O44: the word is the encoder's `ANNN`, and the state after it has I = NNN. -/
theorem loadIndex : Obligations.LoadIndex :=
  ⟨decodeWord_wordNNN_ten, fun s nnn => index_of_exec_eq_setI (exec_ldI nnn s) (toNat_addrOf nnn)⟩

/-- Settles O46: the word is the encoder's `FX29`, and the state after it has I at the glyph of VX's
low nibble. -/
theorem pointAtGlyph : Obligations.PointAtGlyph :=
  ⟨fun p x => (congrArg (decodeWord p) (ofNat_fixed_add_eq_wordXNN 0xF x 0x29)).trans
      (decodeWord_wordXNN_fifteen_0x29 p x),
    fun s x => index_of_exec_eq_setI (exec_ldFVx x s) (toNat_glyphAddr (lowNibble (s.readV x)))⟩

end Sys2Proof
end

section
/-! PROOFS of the timers and keys family (spec 45): `EX9E`, `EXA1`, `FX07`, `FX0A`, `FX15`. -/

namespace Sys2Proof

open Machine

/-! ### The words of groups E and F -/

/-- Group E is told apart by its low byte, under every parameter choice (R74). -/
theorem decodeWord_of_fieldG_eq_fourteen {p : Params} {w : Word} (h : fieldG w = 0xE) :
    decodeWord p w = decodeGroupE w := by
  simp only [decodeWord, h]

/-- Where group and low byte alone tell the instruction, X is its register. -/
theorem decodeWord_fixed_add {p : Params} {g : Nat} {nn : Byte} {i : Reg → Instr} (hg : g < 16)
    (h : ∀ w, fieldG w = g → fieldNN w = nn → decodeWord p w = some (i (fieldX w))) (x : Reg) :
    decodeWord p (BitVec.ofNat 16 (g * 4096 + nn.toNat + x.val * 256)) = some (i x) := by
  rw [ofNat_fixed_add_eq_wordXNN, h _ (fieldG_wordXNN hg x nn) (fieldNN_wordXNN hg x nn),
    fieldX_wordXNN hg]

theorem decodeWord_fixed_fourteen {p : Params} {nn : Byte} {i : Reg → Instr}
    (h : ∀ w, fieldNN w = nn → decodeGroupE w = some (i (fieldX w))) (x : Reg) :
    decodeWord p (BitVec.ofNat 16 (0xE * 4096 + nn.toNat + x.val * 256)) = some (i x) :=
  decodeWord_fixed_add (by decide)
    (fun w hg hnn => (decodeWord_of_fieldG_eq_fourteen hg).trans (h w hnn)) x

theorem decodeWord_fixed_fifteen {p : Params} {nn : Byte} {i : Reg → Instr}
    (h : ∀ w, fieldNN w = nn → decodeGroupF w = some (i (fieldX w))) (x : Reg) :
    decodeWord p (BitVec.ofNat 16 (0xF * 4096 + nn.toNat + x.val * 256)) = some (i x) :=
  decodeWord_fixed_add (by decide)
    (fun w hg hnn => (decodeWord_of_fieldG_eq_fifteen hg).trans (h w hnn)) x

theorem decodeGroupE_of_fieldNN_eq_0x9E {w : Word} (h : fieldNN w = 0x9E) :
    decodeGroupE w = some (.skp (fieldX w)) := by
  simp [decodeGroupE, h]

theorem decodeGroupE_of_fieldNN_eq_0xA1 {w : Word} (h : fieldNN w = 0xA1) :
    decodeGroupE w = some (.sknp (fieldX w)) := by
  simp [decodeGroupE, h]

theorem decodeGroupF_of_fieldNN_eq_0x07 {w : Word} (h : fieldNN w = 0x07) :
    decodeGroupF w = some (.ldVxDT (fieldX w)) := by
  simp [decodeGroupF, h]

theorem decodeGroupF_of_fieldNN_eq_0x0A {w : Word} (h : fieldNN w = 0x0A) :
    decodeGroupF w = some (.ldVxK (fieldX w)) := by
  simp [decodeGroupF, h]

theorem decodeGroupF_of_fieldNN_eq_0x15 {w : Word} (h : fieldNN w = 0x15) :
    decodeGroupF w = some (.ldDTVx (fieldX w)) := by
  simp [decodeGroupF, h]

/-! ### A whole step around an instruction: fetch, execution, tick -/

theorem Fetches.fetch_eq_some {s : State} {i : Instr} {w : Word} (h : Fetches s i w) :
    s.fetch = some w := by
  rw [State.fetch, if_neg (Nat.not_lt.mpr h.inMemory), ← h.word]

/-- The step of a fetched instruction is its execution and the end of the step (R81). -/
theorem step_of_fetches {s t : State} {i : Instr} {w : Word} (hf : Fetches s i w)
    (he : exec i (s.begin.hold w) = .next t) : step s = .next t.finish := by
  rw [step_eq_exec hf.running hf.fetch_eq_some hf.decoded, he]; rfl

theorem toNat_finish_dt_of_perStep {s : State} (h : s.halted = false)
    (hm : s.params.timerMode = .perStep) : s.finish.dt.toNat = s.dt.toNat - 1 := by
  rw [State.finish_of_perStep s h hm]
  exact toNat_countdown s.dt

theorem toNat_finish_st_of_perStep {s : State} (h : s.halted = false)
    (hm : s.params.timerMode = .perStep) : s.finish.st.toNat = s.st.toNat - 1 := by
  rw [State.finish_of_perStep s h hm]
  exact toNat_countdown s.st

/-! ### Keys -/

theorem exec_skp (x : Reg) (s : State) :
    exec (.skp x) s = .next (s.skipIf (s.pressed (lowNibble (s.readV x)))) := rfl

theorem exec_sknp (x : Reg) (s : State) :
    exec (.sknp x) s = .next (s.skipIf (!s.pressed (lowNibble (s.readV x)))) := rfl

theorem eq_lowNibble {k : Key} {b : Byte} (h : k.val = b.toNat % 16) : k = lowNibble b := Fin.ext h

/-- Settles O50: `EX9E` is `Skip(KEY[VX mod 16])`, and the condition of `EXA1` is its negation. -/
theorem skipOnKey : Obligations.SkipOnKey := by
  refine ⟨fun _ => decodeWord_fixed_fourteen fun _ => decodeGroupE_of_fieldNN_eq_0x9E,
    fun _ => decodeWord_fixed_fourteen fun _ => decodeGroupE_of_fieldNN_eq_0xA1,
    fun s x k hk => ?_, fun s x k hk => ?_, fun s x => ⟨_, _, exec_skp x s, exec_sknp x s, ?_⟩⟩
  · rw [eq_lowNibble hk]
    exact skip_of_exec_eq_skipIf (exec_skp x s) Iff.rfl
  · rw [eq_lowNibble hk, ← ite_not]
    exact skip_of_exec_eq_skipIf (exec_sknp x s) (by simp [State.pressed])
  · rw [Ne, skipIf_pc_eq_add_four, skipIf_pc_eq_add_four, Bool.not_eq_true', Bool.not_eq_false]

/-- The least pressed key is the only one that is pressed with none below it. -/
theorem leastPressed_eq_some_of_least {s : State} {k : Key} (hk : s.pressed k = true)
    (hlt : ∀ j : Key, j < k → s.pressed j = false) : s.leastPressed = some k := by
  cases hl : s.leastPressed with
  | none => simp [State.leastPressed_eq_none.mp hl k] at hk
  | some m =>
    obtain ⟨hm, hmlt⟩ := State.leastPressed_eq_some hl
    rcases lt_trichotomy m k with h | rfl | h
    · simp [hlt m h] at hm
    · rfl
    · simp [hmlt k h] at hk

/-- A waiting `FX0A` commits the PC it was fetched from and nothing else (R164). -/
theorem exec_ldVxK_of_none_pressed {s : State} (x : Reg) (h : ∀ k : Key, s.pressed k = false) :
    exec (.ldVxK x) s = .next s := by
  change execLdVxK x s = _
  rw [execLdVxK, State.leastPressed_eq_none.mpr h]
  rfl

theorem exec_ldVxK_of_leastPressed {s : State} {k : Key} (x : Reg) (h : s.leastPressed = some k) :
    exec (.ldVxK x) s = .next (s.writeV x (BitVec.ofNat 8 k.val)).advance := by
  change execLdVxK x s = _
  rw [execLdVxK, h]

theorem SameBut.refl (s : State) : SameBut [] s s := by
  intro f _
  cases f with
  | mem | v | stack | key => exact fun _ => rfl
  | fb => exact fun _ _ => rfl
  | _ => rfl

theorem toNat_ofNat_key (k : Key) : (BitVec.ofNat 8 k.val).toNat = k.val :=
  Nat.mod_eq_of_lt (k.isLt.trans (by decide))

/-- Settles O52: without a pressed key the execution leaves the state as it is and the step's tick
follows; otherwise it is the write of the least pressed key to VX. -/
theorem waitForKey : Obligations.WaitForKey := by
  refine ⟨fun _ => decodeWord_fixed_fifteen fun _ => decodeGroupF_of_fieldNN_eq_0x0A,
    fun s x h => ⟨s, exec_ldVxK_of_none_pressed x h, SameBut.refl s⟩,
    fun s x k hk hlt => ?_, fun s x w hf h hm => ?_⟩
  · exact write_of_exec_eq_writeV (P := fun b => b.toNat = k.val)
      (exec_ldVxK_of_leastPressed x (leastPressed_eq_some_of_least hk hlt)) (toNat_ofNat_key k)
  · have hwait : step s = .next (s.begin.hold w).finish :=
      step_of_fetches hf (exec_ldVxK_of_none_pressed x h)
    exact ⟨_, hwait, State.finish_pc _, toNat_finish_dt_of_perStep hf.running hm,
      toNat_finish_st_of_perStep hf.running hm, State.finish_v _⟩

/-! ### The delay timer -/

theorem exec_ldVxDT (x : Reg) (s : State) :
    exec (.ldVxDT x) s = .next (s.writeV x s.dt).advance := rfl

theorem exec_ldDTVx (x : Reg) (s : State) :
    exec (.ldDTVx x) s = .next { s with dt := s.readV x }.advance := rfl

theorem sameBut_setDt (s : State) (b : Byte) : SameBut [.dt] s { s with dt := b } := by
  intro f hf
  cases f with
  | dt => exact absurd (List.mem_singleton_self _) hf
  | mem | v | stack | key => exact fun _ => rfl
  | fb => exact fun _ _ => rfl
  | _ => rfl

/-- A step of `FX07` reads DT as it is before the step, in either timer mode (R163). -/
theorem step_ldVxDT {s : State} {x : Reg} {w : Word} (hf : Fetches s (.ldVxDT x) w) :
    ∃ u, step s = .next u ∧ u.readV x = s.dt ∧
      (s.params.timerMode = .perStep → u.dt.toNat = s.dt.toNat - 1) :=
  ⟨_, step_of_fetches hf (exec_ldVxDT x _), by simp,
    fun hm => toNat_finish_dt_of_perStep hf.running hm⟩

/-- A step of `FX15` under `per_step` ends with DT one below VX, or 0 (R165). -/
theorem step_ldDTVx {s : State} {x : Reg} {w : Word} (hf : Fetches s (.ldDTVx x) w)
    (hm : s.params.timerMode = .perStep) :
    ∃ u, step s = .next u ∧ u.dt.toNat = (s.readV x).toNat - 1 :=
  ⟨_, step_of_fetches hf (exec_ldDTVx x _), toNat_finish_dt_of_perStep hf.running hm⟩

/-- Settles O51: the execution is the write of DT to VX and the tick comes after it; the DT that
`FX15` leaves has ticked once when the next step reads it. -/
theorem readDelayTimer : Obligations.ReadDelayTimer := by
  refine ⟨fun _ => decodeWord_fixed_fifteen fun _ => decodeGroupF_of_fieldNN_eq_0x07,
    fun s x => write_of_exec_eq_writeV (P := (· = s.dt)) (exec_ldVxDT x s) rfl,
    fun s x w hf hm => ?_, fun s t x y w w' hf hm _ hst hft => ?_⟩
  · obtain ⟨u, hu, hread, htick⟩ := step_ldVxDT hf
    exact ⟨u, hu, hread, htick hm⟩
  · obtain ⟨t', ht', hdt⟩ := step_ldDTVx hf hm
    obtain rfl : t' = t := Host.Outcome.next.inj (ht'.symm.trans hst)
    obtain ⟨u, hu, hread, -⟩ := step_ldVxDT hft
    exact ⟨u, hu, hread ▸ hdt⟩

/-- Settles O53: the execution has DT = VX, and the same step's tick decrements it. -/
theorem setDelayTimer : Obligations.SetDelayTimer :=
  ⟨fun _ => decodeWord_fixed_fifteen fun _ => decodeGroupF_of_fieldNN_eq_0x15,
    fun s x => ⟨_, exec_ldDTVx x s, rfl, rfl, (sameBut_setDt s _).trans (sameBut_advance _)⟩,
    fun _ _ _ hf hm => step_ldDTVx hf hm⟩

end Sys2Proof
end

section
/-! PROOFS about decoding as a whole (spec 30): the encoder and the decoder are inverse to each other,
and the words that decode to nothing. -/

namespace Sys2Proof

open Machine

/-! ### The groups told apart by the whole word, and the groups with one instruction each -/

theorem decodeWord_of_fieldG_eq_zero {p : Params} {w : Word} (h : fieldG w = 0x0) :
    decodeWord p w = decodeGroup0 p w := by
  simp only [decodeWord, h]

/-- Group 2 is `2NNN` alone, under every parameter choice (R74). -/
theorem decodeWord_of_fieldG_eq_two {p : Params} {w : Word} (h : fieldG w = 0x2) :
    decodeWord p w = some (.call (fieldNNN w)) := by
  simp only [decodeWord, h]

/-- Group 9 is `9XY0`, where it exists and its low nibble fits (R75, R76). -/
theorem decodeWord_of_fieldG_eq_nine {p : Params} {w : Word} (h : fieldG w = 0x9) :
    decodeWord p w = if p.has9xy0 && lowNibbleFits p w then
      some (.sneReg (fieldX w) (fieldY w)) else none := by
  simp only [decodeWord, h]

/-- Group B is `BNNN` alone, under every parameter choice (R74). -/
theorem decodeWord_of_fieldG_eq_eleven {p : Params} {w : Word} (h : fieldG w = 0xB) :
    decodeWord p w = some (.jpV0 (fieldNNN w)) := by
  simp only [decodeWord, h]

/-- Group C is `CXNN` alone, under every parameter choice (R74). -/
theorem decodeWord_of_fieldG_eq_twelve {p : Params} {w : Word} (h : fieldG w = 0xC) :
    decodeWord p w = some (.rnd (fieldX w) (fieldNN w)) := by
  simp only [decodeWord, h]

/-- Group D is `DXYN` alone, under every parameter choice (R74). -/
theorem decodeWord_of_fieldG_eq_thirteen {p : Params} {w : Word} (h : fieldG w = 0xD) :
    decodeWord p w = some (.drw (fieldX w) (fieldY w) (fieldN w)) := by
  simp only [decodeWord, h]

theorem fieldG_lt (w : Word) : fieldG w < 16 := by
  have := w.isLt
  rw [fieldG]
  omega

/-! ### Decoding an encoded instruction -/

theorem decodeWord_wordXYN_eight (p : Params) (x y : Reg) (n : Nibble) :
    decodeWord p (wordXYN 0x8 x y n) = decodeGroup8 (wordXYN 0x8 x y n) :=
  decodeWord_of_fieldG_eq_eight (fieldG_wordXYN (by decide) x y n)

theorem decodeWord_wordXNN_fourteen (p : Params) (x : Reg) (nn : Byte) :
    decodeWord p (wordXNN 0xE x nn) = decodeGroupE (wordXNN 0xE x nn) :=
  decodeWord_of_fieldG_eq_fourteen (fieldG_wordXNN (by decide) x nn)

theorem decodeWord_wordXNN_fifteen (p : Params) (x : Reg) (nn : Byte) :
    decodeWord p (wordXNN 0xF x nn) = decodeGroupF (wordXNN 0xF x nn) :=
  decodeWord_of_fieldG_eq_fifteen (fieldG_wordXNN (by decide) x nn)

theorem decodeWord_wordXYN_nine (p : Params) (x y : Reg) :
    decodeWord p (wordXYN 0x9 x y 0) = if p.has9xy0 = true then some (.sneReg x y) else none := by
  rw [decodeWord_of_fieldG_eq_nine (fieldG_wordXYN (by decide) x y 0),
    lowNibbleFits_wordXYN_zero p (by decide) x y, Bool.and_true,
    fieldX_wordXYN (by decide), fieldY_wordXYN (by decide)]

/-- THE ROUND TRIP on words: every instruction the machine has is what its word decodes to. -/
theorem decodeWord_encode {p : Params} {i : Instr} (h : WellFormed p i = true) :
    decodeWord p (encode i) = some i := by
  cases i with
  | cls | ret =>
    refine (decodeWord_of_fieldG_eq_zero (by decide)).trans ?_
    simp [decodeGroup0, encode, fieldX, fieldNN]
  | jp nnn => exact decodeWord_wordNNN_one p nnn
  | call nnn =>
    rw [encode, decodeWord_of_fieldG_eq_two (fieldG_wordNNN (by decide) nnn),
      fieldNNN_wordNNN (by decide)]
  | seImm x nn => exact decodeWord_wordXNN_three p x nn
  | sneImm x nn => exact decodeWord_wordXNN_four p x nn
  | seReg x y => exact decodeWord_wordXYN_five p x y
  | ldImm x nn => exact decodeWord_wordXNN_six p x nn
  | addImm x nn => exact decodeWord_wordXNN_seven p x nn
  | ldReg | orReg | andReg | xorReg | addReg | sub | shr | subn | shl =>
    refine (decodeWord_wordXYN_eight p _ _ _).trans ?_
    simp [decodeGroup8, fieldN_wordXYN, fieldX_wordXYN, fieldY_wordXYN]
  | sneReg x y => exact (decodeWord_wordXYN_nine p x y).trans (if_pos h)
  | ldI nnn => exact decodeWord_wordNNN_ten p nnn
  | jpV0 nnn =>
    rw [encode, decodeWord_of_fieldG_eq_eleven (fieldG_wordNNN (by decide) nnn),
      fieldNNN_wordNNN (by decide)]
  | rnd x nn =>
    rw [encode, decodeWord_of_fieldG_eq_twelve (fieldG_wordXNN (by decide) x nn),
      fieldX_wordXNN (by decide), fieldNN_wordXNN (by decide)]
  | drw x y n =>
    rw [encode, decodeWord_of_fieldG_eq_thirteen (fieldG_wordXYN (by decide) x y n),
      fieldX_wordXYN (by decide), fieldY_wordXYN (by decide), fieldN_wordXYN (by decide)]
  | skp | sknp =>
    refine (decodeWord_wordXNN_fourteen p _ _).trans ?_
    simp [decodeGroupE, fieldNN_wordXNN, fieldX_wordXNN]
  | ldVxDT | ldVxK | ldDTVx | ldSTVx | addIVx | ldFVx | ldBVx | ldMIVx | ldVxMI =>
    refine (decodeWord_wordXNN_fifteen p _ _).trans ?_
    simp [decodeGroupF, fieldNN_wordXNN, fieldX_wordXNN]

theorem decode_of_decodeWord {p : Params} {w : Word} {i : Instr} (rest : List Byte)
    (h : decodeWord p w = some i) : decode p (highByte w :: lowByte w :: rest) = .ok (i, rest) := by
  simp only [decode, concatBytes_high_low, h]

/-- Settles O1: the bytes are the word again, and the word decodes to the instruction. -/
theorem decodeEncodeRoundTrip : Obligations.DecodeEncodeRoundTrip :=
  fun _ _ rest h => decode_of_decodeWord rest (decodeWord_encode h)

/-! ### Encoding what was decoded -/

/-- A word is its group and NNN. -/
theorem wordNNN_fields {w : Word} {g : Nat} (hg : fieldG w = g) : wordNNN g (fieldNNN w) = w := by
  have := w.isLt
  subst hg
  apply BitVec.eq_of_toNat_eq
  simp only [wordNNN, fieldG, fieldNNN, BitVec.toNat_ofNat]
  omega

/-- A word is its group, X and NN. -/
theorem wordXNN_fields {w : Word} {g : Nat} {nn : Byte} (hg : fieldG w = g) (hnn : fieldNN w = nn) :
    wordXNN g (fieldX w) nn = w := by
  have := w.isLt
  subst hg hnn
  apply BitVec.eq_of_toNat_eq
  simp only [wordXNN, fieldG, fieldX, fieldNN, BitVec.toNat_ofNat]
  omega

/-- A word is its group, X, Y and N. -/
theorem wordXYN_fields {w : Word} {g : Nat} {n : Nibble} (hg : fieldG w = g) (hn : fieldN w = n) :
    wordXYN g (fieldX w) (fieldY w) n = w := by
  have := w.isLt
  subst hg hn
  apply BitVec.eq_of_toNat_eq
  simp only [wordXYN, fieldG, fieldX, fieldY, fieldN, BitVec.toNat_ofNat]
  omega

theorem encode_of_decodeGroup0 {p : Params} {w : Word} {i : Instr} (hp : p.decodeStrict = true)
    (hg : fieldG w = 0x0) (h : decodeGroup0 p w = some i) : encode i = w ∧ WellFormed p i = true := by
  have hw := toNat_eq_fields w
  rw [decodeGroup0] at h
  split at h
  · cases h
  · next hx =>
    have hx : fieldX w = 0 := by simpa [hp] using hx
    rw [hg, hx] at hw
    split at h
    · next hnn => cases h; exact ⟨BitVec.eq_of_toNat_eq (by rw [hw, hnn]; rfl), rfl⟩
    · next hnn => cases h; exact ⟨BitVec.eq_of_toNat_eq (by rw [hw, hnn]; rfl), rfl⟩
    · cases h

theorem encode_of_decodeGroup8 {p : Params} {w : Word} {i : Instr} (hg : fieldG w = 0x8)
    (h : decodeGroup8 w = some i) : encode i = w ∧ WellFormed p i = true := by
  rw [decodeGroup8] at h
  split at h
  case h_10 => cases h
  all_goals
    next hn =>
      cases h
      exact ⟨wordXYN_fields hg (BitVec.eq_of_toNat_eq hn), rfl⟩

theorem encode_of_decodeGroupE {p : Params} {w : Word} {i : Instr} (hg : fieldG w = 0xE)
    (h : decodeGroupE w = some i) : encode i = w ∧ WellFormed p i = true := by
  rw [decodeGroupE] at h
  split at h
  case h_3 => cases h
  all_goals
    next hnn =>
      cases h
      exact ⟨wordXNN_fields hg (BitVec.eq_of_toNat_eq hnn), rfl⟩

theorem encode_of_decodeGroupF {p : Params} {w : Word} {i : Instr} (hg : fieldG w = 0xF)
    (h : decodeGroupF w = some i) : encode i = w ∧ WellFormed p i = true := by
  rw [decodeGroupF] at h
  split at h
  case h_10 => cases h
  all_goals
    next hnn =>
      cases h
      exact ⟨wordXNN_fields hg (BitVec.eq_of_toNat_eq hnn), rfl⟩

theorem fieldN_of_lowNibbleFits {p : Params} {w : Word} (hp : p.decodeStrict = true)
    (h : lowNibbleFits p w = true) : fieldN w = 0 :=
  fieldN_eq_zero.mpr (lowNibbleFits_iff.mp h hp)

/-- Settles O2: in each group, the fields the instruction holds and the fixed nibbles the decoder has
checked are the whole word. -/
theorem strictDecodingIsInjective : Obligations.StrictDecodingIsInjective := by
  intro p w i hp h
  rw [decodeWord] at h
  split at h <;> rename_i hg
  · exact encode_of_decodeGroup0 hp hg h
  · cases h; exact ⟨wordNNN_fields hg, rfl⟩
  · cases h; exact ⟨wordNNN_fields hg, rfl⟩
  · cases h; exact ⟨wordXNN_fields hg rfl, rfl⟩
  · cases h; exact ⟨wordXNN_fields hg rfl, rfl⟩
  · split at h
    · next hfit => cases h; exact ⟨wordXYN_fields hg (fieldN_of_lowNibbleFits hp hfit), rfl⟩
    · cases h
  · cases h; exact ⟨wordXNN_fields hg rfl, rfl⟩
  · cases h; exact ⟨wordXNN_fields hg rfl, rfl⟩
  · exact encode_of_decodeGroup8 hg h
  · split at h
    · next hfit =>
      obtain ⟨h9, hfit⟩ := Bool.and_eq_true_iff.mp hfit
      cases h
      exact ⟨wordXYN_fields hg (fieldN_of_lowNibbleFits hp hfit), h9⟩
    · cases h
  · cases h; exact ⟨wordNNN_fields hg, rfl⟩
  · cases h; exact ⟨wordNNN_fields hg, rfl⟩
  · cases h; exact ⟨wordXNN_fields hg rfl, rfl⟩
  · cases h; exact ⟨wordXYN_fields hg rfl, rfl⟩
  · exact encode_of_decodeGroupE hg h
  · exact encode_of_decodeGroupF hg h
  · cases h

end Sys2Proof
end

section
/-! PROOFS about the words that decode to nothing (R77, R78) and the parameters' other values. -/

namespace Sys2Proof

open Machine

/-! ### When each group decodes to nothing -/

theorem decodeGroup0_eq_none {p : Params} {w : Word} (hp : p.decodeStrict = true)
    (hg : fieldG w = 0x0) :
    decodeGroup0 p w = none ↔ w.toNat ≠ 0x00E0 ∧ w.toNat ≠ 0x00EE := by
  have hw := toNat_eq_fields w
  rw [hg] at hw
  have hnn := (fieldNN w).isLt
  rw [decodeGroup0, hp, Bool.true_and]
  split
  · next hx =>
    have hx : (fieldX w).val ≠ 0 := fun h => (bne_iff_ne.mp hx) (Fin.ext h)
    exact iff_of_true rfl (by constructor <;> omega)
  · next hx =>
    have hx : (fieldX w).val = 0 := by simpa using hx
    split
    · exact iff_of_false (Option.some_ne_none _) (by omega)
    · exact iff_of_false (Option.some_ne_none _) (by omega)
    · next hcls hret => exact iff_of_true rfl ⟨fun h => hcls (by omega), fun h => hret (by omega)⟩

theorem toNat_fieldN (w : Word) : (fieldN w).toNat = w.toNat % 16 := BitVec.toNat_ofNat _ _

theorem toNat_fieldNN (w : Word) : (fieldNN w).toNat = w.toNat % 256 := BitVec.toNat_ofNat _ _

theorem decodeGroup8_eq_none {w : Word} :
    decodeGroup8 w = none ↔ w.toNat % 16 ∈ [0x8, 0x9, 0xA, 0xB, 0xC, 0xD, 0xF] := by
  rw [decodeGroup8, toNat_fieldN]
  have : w.toNat % 16 < 16 := Nat.mod_lt _ (by decide)
  split
  case h_10 => simp_all; omega
  all_goals next h => simp [h]

theorem decodeGroupE_eq_none {w : Word} : decodeGroupE w = none ↔ w.toNat % 256 ∉ [0x9E, 0xA1] := by
  rw [decodeGroupE, toNat_fieldNN]
  split
  case h_3 => simp_all
  all_goals next h => simp [h]

theorem decodeGroupF_eq_none {w : Word} : decodeGroupF w = none ↔
    w.toNat % 256 ∉ [0x07, 0x0A, 0x15, 0x18, 0x1E, 0x29, 0x33, 0x55, 0x65] := by
  rw [decodeGroupF, toNat_fieldNN]
  split
  case h_10 => simp_all
  all_goals next h => simp [h]

/-- The groups in which every word decodes, under every parameter choice (R74). -/
theorem decodeWord_ne_none_of_full_group {p : Params} {w : Word}
    (h : fieldG w ∈ [0x1, 0x2, 0x3, 0x4, 0x6, 0x7, 0xA, 0xB, 0xC, 0xD]) : decodeWord p w ≠ none := by
  rw [decodeWord]
  split
  all_goals simp_all

theorem decodeWord_eq_none_of_lacking_nine {p : Params} {w : Word} (h9 : p.has9xy0 = false)
    (hg : fieldG w = 0x9) : decodeWord p w = none := by
  rw [decodeWord_of_fieldG_eq_nine hg, h9, Bool.false_and, if_neg Bool.false_ne_true]

/-- Settles O3: group by group, by the iff of each group that has UNKNOWN words. -/
theorem unknownSpaceInFull : Obligations.UnknownSpaceInFull := by
  intro p w hp h9
  change decodeWord p w = none ↔ (fieldG w = _ ∧ _) ∨ (fieldG w = _ ∧ _) ∨ (fieldG w = _ ∧ _) ∨
    (fieldG w = _ ∧ _) ∨ (fieldG w = _ ∧ _) ∨ (fieldG w = _ ∧ _)
  by_cases hfull : fieldG w ∈ [0x1, 0x2, 0x3, 0x4, 0x6, 0x7, 0xA, 0xB, 0xC, 0xD]
  · refine iff_of_false (decodeWord_ne_none_of_full_group hfull) ?_
    rintro (⟨hg, -⟩ | ⟨hg, -⟩ | ⟨hg, -⟩ | ⟨hg, -⟩ | ⟨hg, -⟩ | ⟨hg, -⟩) <;> simp [hg] at hfull
  · have hg : fieldG w = 0x0 ∨ fieldG w = 0x5 ∨ fieldG w = 0x8 ∨ fieldG w = 0x9 ∨
        fieldG w = 0xE ∨ fieldG w = 0xF := by
      have := fieldG_lt w
      simp only [List.mem_cons, List.not_mem_nil] at hfull
      omega
    rcases hg with hg | hg | hg | hg | hg | hg
    · simp [decodeWord_of_fieldG_eq_zero hg, decodeGroup0_eq_none hp hg, hg]
    · simp [decodeWord_of_fieldG_eq_five hg, lowNibbleFits_iff, hp, hg]
    · simp [decodeWord_of_fieldG_eq_eight hg, decodeGroup8_eq_none, hg]
    · simp [decodeWord_of_fieldG_eq_nine hg, lowNibbleFits_iff, hp, h9, hg]
    · simp [decodeWord_of_fieldG_eq_fourteen hg, decodeGroupE_eq_none, hg]
    · simp [decodeWord_of_fieldG_eq_fifteen hg, decodeGroupF_eq_none, hg]

/-- Without DECODE_STRICT, group 0 is told apart by its low byte alone (R75). -/
theorem decodeGroup0_of_not_strict {p : Params} {w : Word} (hp : p.decodeStrict = false) :
    decodeGroup0 p w = if w.toNat % 256 = 0xE0 then some .cls
      else if w.toNat % 256 = 0xEE then some .ret else none := by
  rw [decodeGroup0, hp, Bool.false_and, if_neg Bool.false_ne_true, toNat_fieldNN]
  split
  all_goals simp_all

theorem lowNibbleFits_of_not_strict {p : Params} (w : Word) (hp : p.decodeStrict = false) :
    lowNibbleFits p w = true :=
  lowNibbleFits_iff.mpr fun h => absurd h (by simp [hp])

/-- Settles O4: the groups' equations at the parameters' other values. -/
theorem decodeParameters : Obligations.DecodeParameters := by
  refine fun p w => ⟨fun hp hg => ?_, fun hp hg => ⟨fieldX w, fieldY w, rfl, rfl, ?_⟩,
    fun hp h9 hg => ⟨fieldX w, fieldY w, rfl, rfl, ?_⟩, decodeWord_eq_none_of_lacking_nine⟩
  · rw [decodeWord_of_fieldG_eq_zero hg, decodeGroup0_of_not_strict hp]
  · rw [decodeWord_of_fieldG_eq_five hg, if_pos (lowNibbleFits_of_not_strict w hp)]
  · rw [decodeWord_of_fieldG_eq_nine hg, h9, lowNibbleFits_of_not_strict w hp]
    rfl

/-- Settles O5: thirteen closed words, decoded. -/
theorem sampleWordsDecode : Obligations.SampleWordsDecode := by
  unfold Obligations.SampleWordsDecode
  decide

end Sys2Proof
end

section
/-! SUPPORT. The frame of every instruction, said once: the components an instruction that raises nothing
may write (`writtenFields`), and that it leaves every other component as it was. -/

namespace Sys2Proof

open Machine

/-! ### Components as they are stored -/

/-- A component is stored the same in two states: of memory, the list of its cells. -/
def Field.Equal (f : Field) (s t : State) : Prop :=
  match f with
  | .params => t.params = s.params
  | .mem => t.mem = s.mem
  | .v => t.v = s.v
  | .i => t.i = s.i
  | .pc => t.pc = s.pc
  | .stack => t.stack = s.stack
  | .sp => t.sp = s.sp
  | .dt => t.dt = s.dt
  | .st => t.st = s.st
  | .fb => t.fb = s.fb
  | .draw => t.draw = s.draw
  | .key => t.key = s.key
  | .halted => t.halted = s.halted
  | .cause => t.cause = s.cause
  | .tone => t.tone = s.tone
  | .opcode => t.opcode = s.opcode
  | .report => t.report = s.report
  | .stepped => t.stepped = s.stepped
  | .draws => t.draws = s.draws

/-- FRAME on the stored components: every one not in the list is the same in `t` as in `s`. -/
def EqualBut (changed : List Field) (s t : State) : Prop :=
  ∀ f : Field, f ∉ changed → f.Equal s t

theorem Field.Equal.same {f : Field} {s t : State} (h : f.Equal s t) : f.Same s t := by
  cases f with
  | mem => exact fun a => congrArg (Memory.read · a) h
  | v => exact fun k => congrArg (fun v : Vector Byte 16 => v[k]) h
  | stack => exact fun k => congrArg (fun v : Vector Word 16 => v[k]) h
  | key => exact fun k => congrArg (fun v : Vector Bool 16 => v[k]) h
  | fb => exact fun x y => congrArg (Frame.pixel · x y) h
  | _ => exact h

theorem EqualBut.sameBut {l : List Field} {s t : State} (h : EqualBut l s t) : SameBut l s t :=
  fun f hf => (h f hf).same

theorem Field.forall_iff {P : Field → Prop} : (∀ f, P f) ↔
    P .params ∧ P .mem ∧ P .v ∧ P .i ∧ P .pc ∧ P .stack ∧ P .sp ∧ P .dt ∧ P .st ∧ P .fb ∧ P .draw ∧
      P .key ∧ P .halted ∧ P .cause ∧ P .tone ∧ P .opcode ∧ P .report ∧ P .stepped ∧ P .draws :=
  ⟨fun h => by simp [h], fun h f => by cases f <;> simp [h]⟩

/-- A frame component by component, for `simp` with the field lemmas of the operations. -/
theorem equalBut_iff {l : List Field} {s t : State} : EqualBut l s t ↔
    (.params ∉ l → t.params = s.params) ∧ (.mem ∉ l → t.mem = s.mem) ∧ (.v ∉ l → t.v = s.v) ∧
    (.i ∉ l → t.i = s.i) ∧ (.pc ∉ l → t.pc = s.pc) ∧ (.stack ∉ l → t.stack = s.stack) ∧
    (.sp ∉ l → t.sp = s.sp) ∧ (.dt ∉ l → t.dt = s.dt) ∧ (.st ∉ l → t.st = s.st) ∧
    (.fb ∉ l → t.fb = s.fb) ∧ (.draw ∉ l → t.draw = s.draw) ∧ (.key ∉ l → t.key = s.key) ∧
    (.halted ∉ l → t.halted = s.halted) ∧ (.cause ∉ l → t.cause = s.cause) ∧
    (.tone ∉ l → t.tone = s.tone) ∧ (.opcode ∉ l → t.opcode = s.opcode) ∧
    (.report ∉ l → t.report = s.report) ∧ (.stepped ∉ l → t.stepped = s.stepped) ∧
    (.draws ∉ l → t.draws = s.draws) :=
  Field.forall_iff

/-! ### The components an instruction writes -/

/-- The components an instruction that raises nothing may write (R36, R82 and the instruction rules). -/
def writtenFields : Instr → List Field
  | .cls => [.fb, .draw, .pc]
  | .ret => [.sp, .pc]
  | .call _ => [.stack, .sp, .pc]
  | .jp _ | .jpV0 _ => [.pc]
  | .seImm _ _ | .sneImm _ _ | .seReg _ _ | .sneReg _ _ | .skp _ | .sknp _ => [.pc]
  | .ldImm _ _ | .addImm _ _ | .ldReg _ _ | .orReg _ _ | .andReg _ _ | .xorReg _ _ => [.v, .pc]
  | .addReg _ _ | .sub _ _ | .shr _ _ | .subn _ _ | .shl _ _ => [.v, .pc]
  | .rnd _ _ => [.v, .draws, .pc]
  | .ldVxDT _ | .ldVxK _ | .ldVxMI _ => [.v, .pc]
  | .ldI _ | .addIVx _ | .ldFVx _ => [.i, .pc]
  | .drw _ _ _ => [.fb, .draw, .v, .pc]
  | .ldDTVx _ => [.dt, .pc]
  | .ldSTVx _ => [.st, .pc]
  | .ldBVx _ | .ldMIVx _ => [.mem, .pc]

/-- THE FRAME of every instruction that raises nothing. -/
theorem equalBut_of_completes {i : Instr} {s t : State} (h : Completes i s t) :
    EqualBut (writtenFields i) s t := by
  cases i
  case ret =>
    obtain ⟨k, n, -, -, rfl⟩ := h
    simp [equalBut_iff, writtenFields]
  case call =>
    obtain ⟨st, n, -, -, -, rfl⟩ := h
    simp [equalBut_iff, writtenFields]
  case drw | ldBVx | ldMIVx | ldVxMI =>
    obtain ⟨-, rfl⟩ := h
    simp [equalBut_iff, writtenFields]
  case ldVxK =>
    rcases h with ⟨-, rfl⟩ | ⟨k, -, rfl⟩
    · simp [equalBut_iff, writtenFields]
    · simp [equalBut_iff, writtenFields]
  all_goals
    obtain rfl := Host.Outcome.next.inj h
    simp [equalBut_iff, writtenFields]

end Sys2Proof
end

section
/-! PROOFS about all instructions at once: when they raise a fatal condition, what they write, where PC
goes. -/

namespace Sys2Proof

open Machine

/-! ### Raising or completing -/

/-- The fatal condition an instruction raises, where it raises one (R201, R204 to R206). -/
def raisedCause (i : Instr) (s : State) : Cause :=
  match i with
  | .call _ => .stackOverflow s.pc s.opcode s.sp
  | .ret => .stackUnderflow s.pc s.opcode s.sp
  | .drw _ _ n => .memoryOutOfRange s.pc s.opcode s.i n.toNat
  | .ldBVx _ => .memoryOutOfRange s.pc s.opcode s.i 3
  | .ldMIVx x | .ldVxMI x => .memoryOutOfRange s.pc s.opcode s.i (x.val + 1)
  | _ => .none

theorem inRange_iff_accessFits {s : State} {n : Nat} :
    inRange s.i.toNat n = true ↔ AccessFits s n := by
  rw [inRange_iff, AccessFits, memSize_eq]
  omega

theorem orRaise_checkRange_of_fits {s : State} {n : Nat} (t : State) (h : AccessFits s n) :
    s.orRaise (s.checkRange n t) = .next t := by
  rw [State.checkRange_of_inRange t (inRange_iff_accessFits.mpr h)]
  rfl

theorem orRaise_checkRange_of_not_fits {s : State} {n : Nat} (t : State) (h : ¬AccessFits s n) :
    s.orRaise (s.checkRange n t) = .next (s.raise (.memoryOutOfRange s.pc s.opcode s.i n)) := by
  rw [State.checkRange_of_not_inRange t (Bool.not_eq_true _ ▸ inRange_iff_accessFits.not.mpr h)]
  rfl

theorem exec_ret_of_pos {s : State} (k : Fin 16) (h : s.sp.val = k.val + 1) :
    ∃ n : Fin 17, n.val = k.val ∧ exec .ret s = .next { s with sp := n, pc := s.stack[k] } := by
  obtain ⟨n, hpop, hn⟩ := State.pop_of_pos k h
  exact ⟨n, hn, by change execRet s = _; rw [execRet, hpop]; rfl⟩

theorem exec_ret_of_empty {s : State} (h : s.sp.val = 0) :
    exec .ret s = .next (s.raise (.stackUnderflow s.pc s.opcode s.sp)) := by
  change execRet s = _
  rw [execRet, State.pop_of_empty h]
  rfl

theorem exec_call_of_lt {s : State} (nnn : Addr) (h : s.sp.val < 16) :
    ∃ (st : Vector Word 16) (n : Fin 17), n.val = s.sp.val + 1 ∧
      (∀ k : Fin 16, st[k] = if k.val = s.sp.val then s.pc + 2 else s.stack[k]) ∧
      exec (.call nnn) s = .next { s with stack := st, sp := n, pc := addrOf nnn } := by
  obtain ⟨st, n, hpush, hn, hst⟩ := State.push_of_lt (s.pc + 2) h
  exact ⟨st, n, hn, hst, by change execCall nnn s = _; rw [execCall, hpush]; rfl⟩

theorem exec_call_of_full {s : State} (nnn : Addr) (h : s.sp.val = 16) :
    exec (.call nnn) s = .next (s.raise (.stackOverflow s.pc s.opcode s.sp)) := by
  change execCall nnn s = _
  rw [execCall, State.push_of_full _ h]
  rfl

theorem exec_of_raisesIn {i : Instr} {s : State} (h : RaisesIn s i) :
    exec i s = .next (s.raise (raisedCause i s)) := by
  cases i
  case ret => exact exec_ret_of_empty h
  case call nnn => exact exec_call_of_full nnn h
  case drw | ldBVx | ldMIVx | ldVxMI => exact orRaise_checkRange_of_not_fits _ h
  all_goals exact False.elim h

theorem raisedCause_ne_none {i : Instr} {s : State} (h : RaisesIn s i) :
    raisedCause i s ≠ .none := by
  cases i
  case ret | call | drw | ldBVx | ldMIVx | ldVxMI => exact Cause.noConfusion
  all_goals exact False.elim h

theorem exec_of_not_raisesIn {i : Instr} {s : State} (h : ¬RaisesIn s i) :
    ∃ t, exec i s = .next t ∧ Completes i s t := by
  cases i
  case ret =>
    have hpos : s.sp.val ≠ 0 := h
    have hk : s.sp.val = (⟨s.sp.val - 1, by omega⟩ : Fin 16).val + 1 := by simp only; omega
    obtain ⟨n, hn, he⟩ := exec_ret_of_pos _ hk
    exact ⟨_, he, _, n, hk, hn, rfl⟩
  case call nnn =>
    have hlt : s.sp.val < 16 := Nat.lt_of_le_of_ne (Nat.le_of_lt_succ s.sp.isLt) h
    obtain ⟨st, n, hn, hst, he⟩ := exec_call_of_lt nnn hlt
    exact ⟨_, he, st, n, hlt, hn, hst, rfl⟩
  case drw | ldBVx | ldMIVx | ldVxMI =>
    have hfits := not_not.mp h
    exact ⟨_, orRaise_checkRange_of_fits _ hfits, inRange_iff_accessFits.mpr hfits, rfl⟩
  case ldVxK x =>
    cases hl : s.leastPressed with
    | none => exact ⟨_, exec_ldVxK_of_none_pressed x (State.leastPressed_eq_none.mp hl), .inl ⟨hl, rfl⟩⟩
    | some k => exact ⟨_, exec_ldVxK_of_leastPressed x hl, .inr ⟨k, hl, rfl⟩⟩
  all_goals exact ⟨_, rfl, rfl⟩

/-- INVERSION of an instruction, with the condition that tells the two ends apart (R211). -/
theorem exec_raises_or_completes {i : Instr} {s t : State} (h : exec i s = .next t) :
    RaisesIn s i ∧ t = s.raise (raisedCause i s) ∨ ¬RaisesIn s i ∧ Completes i s t := by
  by_cases hr : RaisesIn s i
  · exact .inl ⟨hr, (Host.Outcome.next.inj ((exec_of_raisesIn hr).symm.trans h)).symm⟩
  · obtain ⟨u, hu, hc⟩ := exec_of_not_raisesIn hr
    exact .inr ⟨hr, Host.Outcome.next.inj (hu.symm.trans h) ▸ hc⟩

theorem exec_total (i : Instr) (s : State) : ∃ t, exec i s = .next t := by
  by_cases hr : RaisesIn s i
  · exact ⟨_, exec_of_raisesIn hr⟩
  · obtain ⟨t, ht, -⟩ := exec_of_not_raisesIn hr
    exact ⟨t, ht⟩

/-- What instructions that raise nothing write: not the parameters, the key latch, HALTED, CAUSE, TONE,
the opcode register, the report or the protocol's record of a step (R31, R33, R34). -/
def writableFields : List Field :=
  [.mem, .v, .i, .pc, .stack, .sp, .dt, .st, .fb, .draw, .draws]

theorem writtenFields_subset (i : Instr) : writtenFields i ⊆ writableFields := by
  cases i <;> simp [writtenFields, writableFields]

theorem Machine.Completes.equal {i : Instr} {s t : State} (hc : Completes i s t) {f : Field}
    (h : f ∉ writableFields) : f.Equal s t :=
  equalBut_of_completes hc f fun hf => h (writtenFields_subset i hf)

theorem Machine.Completes.halted {i : Instr} {s t : State} (hc : Completes i s t) :
    t.halted = s.halted :=
  hc.equal (f := .halted) (by decide)

/-- A running core that is still running after an instruction has completed it. -/
theorem completes_of_exec {i : Instr} {s t : State} (h : exec i s = .next t)
    (ht : t.halted = false) : Completes i s t := by
  rcases exec_raises_or_completes h with ⟨-, rfl⟩ | ⟨-, hc⟩
  · exact absurd ht (by simp)
  · exact hc

/-- Settles O11: an instruction that raises halts the core, and one that completes leaves HALTED. -/
theorem fatalConditionsInFull : Obligations.FatalConditionsInFull := by
  intro i s t hs h
  rcases exec_raises_or_completes h with ⟨hr, rfl⟩ | ⟨hr, hc⟩
  · exact iff_of_true rfl hr
  · exact iff_of_false (by simp [hc.halted, hs]) hr

/-! ### The writers of each component -/

theorem mem_writtenFields_of_not_same {i : Instr} {s t : State} {f : Field} (hc : Completes i s t)
    (h : ¬f.Same s t) : f ∈ writtenFields i :=
  by_contra fun hf => h (equalBut_of_completes hc f hf).same

theorem mem_mem_writtenFields {i : Instr} (h : Field.mem ∈ writtenFields i) :
    ∃ x, i = .ldBVx x ∨ i = .ldMIVx x := by
  cases i <;> simp [writtenFields] at h ⊢

theorem i_mem_writtenFields {i : Instr} (h : Field.i ∈ writtenFields i) :
    (∃ nnn, i = .ldI nnn) ∨ ∃ x, i = .addIVx x ∨ i = .ldFVx x := by
  cases i <;> simp [writtenFields] at h ⊢

theorem stack_mem_writtenFields {i : Instr} (h : Field.stack ∈ writtenFields i) :
    ∃ nnn, i = .call nnn := by
  cases i <;> simp [writtenFields] at h ⊢

theorem sp_mem_writtenFields {i : Instr} (h : Field.sp ∈ writtenFields i) :
    i = .ret ∨ ∃ nnn, i = .call nnn := by
  cases i <;> simp [writtenFields] at h ⊢

theorem dt_mem_writtenFields {i : Instr} (h : Field.dt ∈ writtenFields i) : ∃ x, i = .ldDTVx x := by
  cases i <;> simp [writtenFields] at h ⊢

theorem st_mem_writtenFields {i : Instr} (h : Field.st ∈ writtenFields i) : ∃ x, i = .ldSTVx x := by
  cases i <;> simp [writtenFields] at h ⊢

theorem fb_mem_writtenFields {i : Instr} (h : Field.fb ∈ writtenFields i) :
    i = .cls ∨ ∃ x y n, i = .drw x y n := by
  cases i <;> simp [writtenFields] at h ⊢

theorem draw_mem_writtenFields {i : Instr} (h : Field.draw ∈ writtenFields i) :
    i = .cls ∨ ∃ x y n, i = .drw x y n := by
  cases i <;> simp [writtenFields] at h ⊢

theorem draws_mem_writtenFields {i : Instr} (h : Field.draws ∈ writtenFields i) :
    ∃ x nn, i = .rnd x nn := by
  cases i <;> simp [writtenFields] at h ⊢

/-- The two instructions that write DRAW set it (R30). -/
theorem Machine.Completes.draw {i : Instr} {s t : State} (hc : Completes i s t)
    (h : s.draw = true) : t.draw = true := by
  by_cases hf : Field.draw ∈ writtenFields i
  · rcases draw_mem_writtenFields hf with rfl | ⟨x, y, n, rfl⟩
    · obtain rfl := Host.Outcome.next.inj hc
      rfl
    · obtain ⟨-, rfl⟩ := hc
      rfl
  · exact (equalBut_of_completes hc .draw hf).trans h

/-- Settles O18: a component that is not as before is one of the instruction's written components, and
each of these lists names its writers. -/
theorem onlyNamedWritersChangeState : Obligations.OnlyNamedWritersChangeState := by
  intro i s t _ h ht
  have hc := completes_of_exec h ht
  exact ⟨fun hn => mem_mem_writtenFields (mem_writtenFields_of_not_same hc hn),
    fun hn => i_mem_writtenFields (mem_writtenFields_of_not_same hc hn),
    fun hn => stack_mem_writtenFields (mem_writtenFields_of_not_same hc hn),
    fun hn => sp_mem_writtenFields (mem_writtenFields_of_not_same hc hn),
    fun hn => dt_mem_writtenFields (mem_writtenFields_of_not_same hc hn),
    fun hn => st_mem_writtenFields (mem_writtenFields_of_not_same hc hn),
    fun hn => fb_mem_writtenFields (mem_writtenFields_of_not_same hc hn),
    fun hn => draw_mem_writtenFields (mem_writtenFields_of_not_same hc hn),
    hc.draw,
    fun hn => draws_mem_writtenFields (mem_writtenFields_of_not_same hc hn),
    (hc.equal (by decide)).same, (hc.equal (by decide)).same, (hc.equal (by decide)).same,
    (hc.equal (by decide)).same, (hc.equal (by decide)).same, (hc.equal (by decide)).same,
    (hc.equal (by decide)).same⟩

/-! ### The V registers -/

theorem regsSameBut_of_v_eq {l : List Reg} {s t : State} (h : t.v = s.v) : RegsSameBut l s t :=
  fun k _ => congrArg (fun v : Vector Byte 16 => v[k]) h

theorem regsSameBut_writeBoth (s : State) (x : Reg) (r : Byte) (b : Bool) (o : WriteOrder) :
    RegsSameBut [x, vf] s (s.writeBoth x r b o) := by
  intro k hk
  obtain ⟨hx, hvf⟩ : k ≠ x ∧ k ≠ vf := by simpa using hk
  simp [State.readV_writeBoth, hx, hvf]

theorem regsSameBut_loadBlock (s : State) (x : Reg) :
    RegsSameBut ((List.finRange 16).filter (· ≤ x)) s { s with v := s.loadBlock x } := by
  intro k hk
  have hk : ¬k ≤ x := by simpa using hk
  exact (s.readV_loadBlock x k).trans (if_neg hk)

theorem regsSameBut_of_completes {i : Instr} {s t : State} (hc : Completes i s t) :
    RegsSameBut (destRegs i) s t := by
  by_cases hv : Field.v ∉ writtenFields i
  · exact regsSameBut_of_v_eq (equalBut_of_completes hc .v hv)
  · cases i
    case ldImm | addImm | ldReg | orReg | andReg | xorReg | rnd | ldVxDT =>
      obtain rfl := Host.Outcome.next.inj hc
      exact regsSameBut_writeV _ _ _
    case addReg | sub | shr | subn | shl =>
      obtain rfl := Host.Outcome.next.inj hc
      exact regsSameBut_writeBoth s _ _ _ _
    case drw =>
      obtain ⟨-, rfl⟩ := hc
      exact regsSameBut_writeV _ _ _
    case ldVxMI x =>
      obtain ⟨-, rfl⟩ := hc
      exact regsSameBut_loadBlock s x
    case ldVxK x =>
      rcases hc with ⟨-, rfl⟩ | ⟨k, -, rfl⟩
      · exact regsSameBut_of_v_eq rfl
      · exact regsSameBut_writeV s _ _
    all_goals exact absurd (by simp [writtenFields]) hv

/-- Settles O19: a raise leaves V, and an instruction that completes writes its destinations. -/
theorem onlyDestinationRegistersChange : Obligations.OnlyDestinationRegistersChange := by
  intro i s t h
  rcases exec_raises_or_completes h with ⟨-, rfl⟩ | ⟨-, hc⟩
  · exact regsSameBut_of_v_eq rfl
  · exact regsSameBut_of_completes hc

end Sys2Proof
end

section
/-! PROOFS about the committed PC of every instruction (R82). -/

namespace Sys2Proof

open Machine

/-- NNN plus a byte needs no more than 16 bits (R115). -/
theorem toNat_addrOf_add_wordOf (nnn : Addr) (b : Byte) :
    (addrOf nnn + wordOf b).toNat = nnn.toNat + b.toNat := by
  have := nnn.isLt
  have := b.isLt
  rw [BitVec.toNat_add, toNat_addrOf, wordOf, BitVec.toNat_setWidth]
  omega

theorem pc_skipIf_of_iff {s : State} {c : Bool} {P : Prop} [Decidable P] (h : c = true ↔ P) :
    (s.skipIf c).pc = if P then s.pc + 4 else s.pc + 2 :=
  if_congr h rfl rfl

theorem exists_pressed_of_leastPressed {s : State} {k : Key} (h : s.leastPressed = some k) :
    ∃ k, s.pressed k = true :=
  ⟨k, (State.leastPressed_eq_some h).1⟩

theorem not_exists_pressed_of_leastPressed {s : State} (h : s.leastPressed = none) :
    ¬∃ k, s.pressed k = true := by
  simp [State.leastPressed_eq_none.mp h]

/-- Settles O20: the jumps and the skips commit what their rules say, `FX0A` waits or advances, and every
other effect ends in `pc0 + 2`. -/
theorem committedPcByClass : Obligations.CommittedPcByClass := by
  refine ⟨fun w s t h => by obtain rfl := Host.Outcome.next.inj h; rfl, fun i s t h _ ht => ?_⟩
  have hc := completes_of_exec h ht
  cases i with
  | jp nnn => obtain rfl := Host.Outcome.next.inj hc; exact toNat_addrOf nnn
  | call nnn => obtain ⟨st, n, -, -, -, rfl⟩ := hc; exact toNat_addrOf nnn
  | jpV0 nnn => obtain rfl := Host.Outcome.next.inj hc; exact toNat_addrOf_add_wordOf nnn _
  | ret =>
    obtain ⟨j, n, hj, -, rfl⟩ := hc
    intro k hk
    obtain rfl : k = j := Fin.ext (by omega)
    rfl
  | seImm | seReg => obtain rfl := Host.Outcome.next.inj hc; exact pc_skipIf_of_iff beq_iff_eq
  | sneImm | sneReg => obtain rfl := Host.Outcome.next.inj hc; exact pc_skipIf_of_iff bne_iff_ne
  | skp x =>
    obtain rfl := Host.Outcome.next.inj hc
    intro k hk
    rw [eq_lowNibble hk]
    exact pc_skipIf_of_iff Iff.rfl
  | sknp x =>
    obtain rfl := Host.Outcome.next.inj hc
    intro k hk
    rw [eq_lowNibble hk]
    exact pc_skipIf_of_iff (by rw [Bool.not_eq_true'])
  | ldVxK x =>
    rcases hc with ⟨hl, rfl⟩ | ⟨k, hl, rfl⟩
    · exact (if_neg (not_exists_pressed_of_leastPressed hl)).symm
    · exact (if_pos (exists_pressed_of_leastPressed hl)).symm
  | drw | ldBVx | ldMIVx | ldVxMI => obtain ⟨-, rfl⟩ := hc; rfl
  | addReg | sub | shr | subn | shl =>
    obtain rfl := Host.Outcome.next.inj hc
    exact congrArg (· + 2) (State.writeBoth_pc s _ _ _ _)
  | _ => obtain rfl := Host.Outcome.next.inj hc; rfl

end Sys2Proof
end

section
/-! PROOFS about one step (spec 30 section 3, spec 45 section 3, spec 60): what it runs, when it halts, what
a halted core does. -/

namespace Sys2Proof

open Machine

/-! ### Beginning and ending a step -/

theorem equalBut_begin_hold (s : State) (w : Word) :
    EqualBut [.report, .opcode] s (s.begin.hold w) := by
  simp [equalBut_iff]

theorem equalBut_idle (s : State) : EqualBut [.tone, .report, .stepped] s s.idle := by
  simp [equalBut_iff]

theorem finish_eq (s : State) : s.finish =
    { (if s.halted = false ∧ s.params.timerMode = .perStep then s.tick else s) with
      opcode := none, stepped := true } := by
  cases hh : s.halted <;> cases hm : s.params.timerMode <;> simp [State.finish, hh, hm]

theorem fetch_eq_some_of_le {s : State} (h : s.pc.toNat + 1 ≤ 0xFFF) : s.fetch =
    some (concatBytes (Memory.read s.mem s.pc.toNat) (Memory.read s.mem (s.pc.toNat + 1))) :=
  if_neg (Nat.not_lt.mpr h)

theorem fetch_eq_none_of_gt {s : State} (h : s.pc.toNat + 1 > 0xFFF) : s.fetch = none := if_pos h

theorem finish_tone_of_perStep {s : State} (h : s.halted = false)
    (hm : s.params.timerMode = .perStep) : s.finish.tone = true ↔ s.st.toNat ≠ 0 := by
  rw [State.finish_of_perStep s h hm]
  simp [← BitVec.toNat_inj]

/-- Settles O6: the execution answers a next state, and the step ends on it. -/
theorem stepRunsDecodedInstruction : Obligations.StepRunsDecodedInstruction := by
  intro s i w hf
  obtain ⟨t, ht⟩ := exec_total i (s.begin.hold w)
  have ht' : exec i { s with opcode := some w, report := none } = .next t := ht
  rw [step_of_fetches hf ht, ht', finish_eq]

/-- What a step on an UNKNOWN word leaves before the tick (R202). -/
def Machine.State.reportUnknown (s : State) (w : Word) : State :=
  { s.begin.hold w with report := some (.unknownOpcode s.pc w) }.advance

theorem step_of_unknown {s : State} {w : Word} (h : s.halted = false) (hf : s.fetch = some w)
    (hd : decodeWord s.params w = none) : step s = .next (s.reportUnknown w).finish :=
  step_eq_unknown h hf hd

/-- Settles O7: the step is the report and the advance, with the tick of the timer mode. -/
theorem unknownWordStep : Obligations.UnknownWordStep := by
  intro s w hs hpc hw hd
  have hframe : EqualBut [.report, .pc, .dt, .st, .tone, .opcode, .stepped] s
      (s.reportUnknown w).finish := by
    simp [equalBut_iff, State.reportUnknown]
  refine ⟨_, step_of_unknown hs (hw ▸ fetch_eq_some_of_le hpc) hd, State.finish_report _,
    State.finish_pc _, fun hm => ?_, fun hm => ?_, hframe.sameBut⟩
  · exact ⟨toNat_finish_dt_of_perStep hs hm, toNat_finish_st_of_perStep hs hm,
      finish_tone_of_perStep hs hm⟩
  · rw [State.finish_of_externalTick (s.reportUnknown w) hm]
    exact ⟨rfl, rfl, rfl⟩

/-! ### Steps that halt -/

/-- Ending a step that raised a fatal condition shows cause, report and TONE 0, and empties the opcode
register (R208). -/
theorem equalBut_raise_finish {s r : State} (c : Cause) (h : EqualBut [.report, .opcode] s r) :
    EqualBut [.halted, .cause, .tone, .report, .opcode, .stepped] s (r.raise c).finish := by
  rw [State.finish_of_halted _ (State.raise_halted r c)]
  simp_all [equalBut_iff]

theorem finish_raise_tone (s : State) (c : Cause) : (s.raise c).finish.tone = false := by
  rw [State.finish_of_halted _ (State.raise_halted s c)]
  rfl

theorem equalBut_begin (s : State) : EqualBut [.report, .opcode] s s.begin := by simp [equalBut_iff]

/-- Settles O8: the step is the raise of FetchOutOfRange, and it does not tick. -/
theorem fetchPastMemoryHalts : Obligations.FetchPastMemoryHalts := fun s hs hpc =>
  ⟨_, step_eq_fetchFault hs (fetch_eq_none_of_gt hpc), State.finish_halted _, State.finish_cause _,
    finish_raise_tone _ _, State.finish_report _,
    (equalBut_raise_finish _ (equalBut_begin s)).sameBut⟩

/-- Settles O9: the step of a halted core is `idle`. -/
theorem haltedStepDoesNothing : Obligations.HaltedStepDoesNothing := fun s hs =>
  ⟨s.idle, step_eq_idle hs, rfl, rfl, rfl, (equalBut_idle s).sameBut⟩

/-- INVERSION of a step that halts a running core: it raised one fatal condition, from the state the step
began with. -/
theorem step_halts_cases {s t : State} (hs : s.halted = false) (h : step s = .next t)
    (ht : t.halted = true) : ∃ (r : State) (c : Cause), c ≠ .none ∧
      EqualBut [.report, .opcode] s r ∧ t = (r.raise c).finish := by
  rcases step_cases h with ⟨hh, -⟩ | ⟨-, -, rfl⟩ | ⟨w, -, -, -, rfl⟩ | ⟨w, i, u, -, -, -, he, rfl⟩
  · exact absurd (hs.symm.trans hh) Bool.false_ne_true
  · exact ⟨_, _, Cause.noConfusion, equalBut_begin s, rfl⟩
  · exact absurd ht (by simp [hs])
  · rcases exec_raises_or_completes he with ⟨hr, rfl⟩ | ⟨-, hc⟩
    · exact ⟨_, _, raisedCause_ne_none hr, equalBut_begin_hold s w, rfl⟩
    · exact absurd ht (by simp [hc.halted, hs])

/-- Settles O10: a step that halts is a raise, and its frame is that of the raise. -/
theorem fatalStepsArePrecise : Obligations.FatalStepsArePrecise := by
  intro s t hs h ht
  obtain ⟨r, c, hc, hr, rfl⟩ := step_halts_cases hs h ht
  refine ⟨by simpa using hc, by simp, finish_raise_tone r c, (equalBut_raise_finish c hr).sameBut⟩

/-- Settles O12: each of the four shapes of a step answers a next state, the execution of an instruction
among them. -/
theorem everyStepCompletes : Obligations.EveryStepCompletes := by
  intro s
  cases hs : s.halted with
  | true => exact ⟨_, step_eq_idle hs⟩
  | false =>
    cases hf : s.fetch with
    | none => exact ⟨_, step_eq_fetchFault hs hf⟩
    | some w =>
      cases hd : decodeWord s.params w with
      | none => exact ⟨_, step_of_unknown hs hf hd⟩
      | some i =>
        obtain ⟨u, hu⟩ := exec_total i (s.begin.hold w)
        exact ⟨u.finish, by rw [step_eq_exec hs hf hd, hu]; rfl⟩

theorem EqualBut.trans_self {l : List Field} {s t u : State} (hst : EqualBut l s t)
    (htu : EqualBut l t u) : EqualBut l s u := by
  intro f hf
  have h₁ := hst f hf
  have h₂ := htu f hf
  cases f with
  | _ => exact Eq.trans h₂ h₁

theorem stepCalls_of_halted {k : Nat} {s t : State} (hs : s.halted = true) (h : StepCalls k s t) :
    t.halted = true ∧ EqualBut [.tone, .report, .stepped] s t := by
  induction k generalizing s with
  | zero =>
    obtain rfl : t = s := h
    exact ⟨hs, by simp [equalBut_iff]⟩
  | succ k ih =>
    obtain ⟨u, hu, hrest⟩ := h
    obtain rfl := Host.Outcome.next.inj ((step_eq_idle hs).symm.trans hu)
    obtain ⟨ht, hframe⟩ := ih ((State.idle_halted s).trans hs) hrest
    exact ⟨ht, (equalBut_idle s).trans_self hframe⟩

/-- Settles O13: by induction on the number of calls, each of which is `idle`. -/
theorem haltedForEver : Obligations.HaltedForEver := fun _ _ _ hs h =>
  ⟨(stepCalls_of_halted hs h).1, (stepCalls_of_halted hs h).2.sameBut⟩

/-! ### The tick of a completed step -/

/-- INVERSION of a step that fetched an instruction and did not halt: the instruction completed, and the
step ended. -/
theorem step_completes_cases {s t : State} {i : Instr} {w : Word} (hf : Fetches s i w)
    (h : step s = .next t) (ht : t.halted = false) :
    ∃ u, Completes i (s.begin.hold w) u ∧ u.halted = false ∧ t = u.finish := by
  obtain ⟨u, hu⟩ := exec_total i (s.begin.hold w)
  obtain rfl := Host.Outcome.next.inj ((step_of_fetches hf hu).symm.trans h)
  rw [State.finish_halted] at ht
  exact ⟨u, completes_of_exec hu ht, ht, rfl⟩

theorem Machine.Completes.dt {i : Instr} {s t : State} (hc : Completes i s t) :
    ((∀ x, i ≠ .ldDTVx x) → t.dt = s.dt) ∧ ∀ x, i = .ldDTVx x → t.dt = s.readV x := by
  refine ⟨fun hi => equalBut_of_completes hc .dt fun hm => ?_, ?_⟩
  · obtain ⟨x, hx⟩ := dt_mem_writtenFields hm
    exact hi x hx
  · rintro x rfl
    obtain rfl := Host.Outcome.next.inj hc
    rfl

theorem Machine.Completes.st {i : Instr} {s t : State} (hc : Completes i s t) :
    ((∀ x, i ≠ .ldSTVx x) → t.st = s.st) ∧ ∀ x, i = .ldSTVx x → t.st = s.readV x := by
  refine ⟨fun hi => equalBut_of_completes hc .st fun hm => ?_, ?_⟩
  · obtain ⟨x, hx⟩ := st_mem_writtenFields hm
    exact hi x hx
  · rintro x rfl
    obtain rfl := Host.Outcome.next.inj hc
    rfl

/-- Settles O14: the tick counts down what the instruction left, and the instruction left each timer alone
unless it is the one that sets it. -/
theorem completedStepTicks : Obligations.CompletedStepTicks := by
  intro s t i w hf h ht
  obtain ⟨u, hc, hu, rfl⟩ := step_completes_cases hf h ht
  obtain ⟨hdt, hdtx⟩ := hc.dt
  obtain ⟨hst, hstx⟩ := hc.st
  have hparams : u.params = s.params := hc.equal (f := .params) (by decide)
  have htone : u.tone = s.tone := hc.equal (f := .tone) (by decide)
  refine ⟨fun hm => ?_, fun hm => ?_⟩
  · have hm := (congrArg Params.timerMode hparams).trans hm
    simp only [toNat_finish_dt_of_perStep hu hm, toNat_finish_st_of_perStep hu hm,
      finish_tone_of_perStep hu hm]
    exact ⟨fun hi => by rw [hdt hi]; rfl, fun hi => by rw [hst hi]; exact ⟨rfl, Iff.rfl⟩,
      fun x hi => by rw [hdtx x hi]; rfl, fun x hi => by rw [hstx x hi]; exact ⟨rfl, Iff.rfl⟩⟩
  · rw [State.finish_of_externalTick u ((congrArg Params.timerMode hparams).trans hm)]
    exact ⟨htone, hdt, hst, hdtx, hstx⟩

end Sys2Proof
end

section
/-! PROOFS of the machine's invariant (spec 10, spec 60 section 2): reset has it, and every step, every
host operation and so every run keeps it. -/

namespace Sys2Proof

open Machine

/-! ### Instructions -/

/-- A write keeps memory's canonical form, and no other instruction changes memory (log 14). -/
theorem Machine.Completes.memory_wf {i : Instr} {s t : State} (hc : Completes i s t)
    (h : Memory.wf s.mem) : Memory.wf t.mem := by
  by_cases hf : Field.mem ∈ writtenFields i
  · obtain ⟨x, rfl | rfl⟩ := mem_mem_writtenFields hf
    · obtain ⟨-, rfl⟩ := hc
      exact Memory.wf_writeAll h _ _
    · obtain ⟨-, rfl⟩ := hc
      exact Memory.wf_writeAll h _ _
  · have hmem : t.mem = s.mem := equalBut_of_completes hc .mem hf
    exact hmem ▸ h

theorem toNat_add_le (a b : Word) : (a + b).toNat ≤ a.toNat + b.toNat := by
  rw [BitVec.toNat_add]
  exact Nat.mod_le _ _

/-- A call pushes at most 0x1000, and no other instruction changes a slot (R112). -/
theorem Machine.Completes.stack_le {i : Instr} {s t : State} (hc : Completes i s t)
    (hpc : s.pc.toNat + 1 ≤ 0xFFF) (h : ∀ k : Fin 16, s.stack[k].toNat ≤ 0x1000) (k : Fin 16) :
    t.stack[k].toNat ≤ 0x1000 := by
  by_cases hf : Field.stack ∈ writtenFields i
  · obtain ⟨nnn, rfl⟩ := stack_mem_writtenFields hf
    obtain ⟨st, n, -, -, hst, rfl⟩ := hc
    change st[k].toNat ≤ 0x1000
    rw [hst k]
    split
    · have hsum : (s.pc + 2).toNat ≤ s.pc.toNat + 2 := toNat_add_le _ _
      omega
    · exact h k
  · have hstack : t.stack = s.stack := equalBut_of_completes hc .stack hf
    exact hstack ▸ h k

/-- The highest PC is that of `BNNN` with both numbers at their maximum (R24, R115). -/
theorem Machine.Completes.pc_le {i : Instr} {s t : State} (hc : Completes i s t)
    (he : exec i s = .next t) (hs : s.halted = false) (hpc : s.pc.toNat + 1 ≤ 0xFFF)
    (h : ∀ k : Fin 16, s.stack[k].toNat ≤ 0x1000) : t.pc.toNat ≤ 0x10FE := by
  have hpc' := committedPcByClass.2 i s t he hs (hc.halted.trans hs)
  have h2 : (s.pc + 2).toNat ≤ s.pc.toNat + 2 := toNat_add_le _ _
  have h4 : (s.pc + 4).toNat ≤ s.pc.toNat + 4 := toNat_add_le _ _
  cases i with
  | jp nnn | call nnn =>
    have := nnn.isLt
    rw [hpc']
    omega
  | jpV0 nnn =>
    have := nnn.isLt
    have := (s.readV 0).isLt
    rw [hpc']
    omega
  | ret =>
    obtain ⟨k, -, hk, -, -⟩ := hc
    have := h k
    rw [hpc' k hk.symm]
    omega
  | seImm | sneImm | seReg | sneReg =>
    rw [hpc']
    split <;> omega
  | skp x | sknp x =>
    rw [hpc' (lowNibble (s.readV x)) rfl]
    split <;> omega
  | ldVxK =>
    rw [hpc']
    split <;> omega
  | _ =>
    rw [hpc']
    omega

/-! ### Steps -/

theorem finish_tone_of_halted {s : State} (h : s.halted = true) : s.finish.tone = s.tone := by
  rw [State.finish_of_halted s h]

/-- The end of a step has the invariant where its clauses but the opcode register's held before it. -/
theorem inv_finish {s : State} (hmem : Memory.wf s.mem) (hpc : s.pc.toNat ≤ 0x10FE)
    (hstack : ∀ k : Fin 16, s.stack[k].toNat ≤ 0x1000) (hcause : s.halted = true ↔ s.cause ≠ .none)
    (htone : s.halted = true → s.tone = false) : Inv s.finish where
  memory := by rwa [State.finish_mem]
  pc := by rwa [State.finish_pc]
  stack := by rwa [State.finish_stack]
  cause := by rwa [State.finish_halted, State.finish_cause]
  tone := by
    rw [State.finish_halted]
    exact fun h => (finish_tone_of_halted h).trans (htone h)
  opcode := State.finish_opcode s

theorem inv_idle {s : State} (h : Inv s) : Inv s.idle :=
  ⟨h.memory, h.pc, h.stack, h.cause, fun _ => rfl, h.opcode⟩

/-- Settles O15: by the shapes of a step; an instruction raises, which keeps every bounded component, or
completes, which keeps each bound. -/
theorem stepKeepsInvariant : Obligations.StepKeepsInvariant := by
  intro s t h hstep
  rcases step_cases hstep with ⟨-, rfl⟩ | ⟨-, -, rfl⟩ | ⟨w, hs, hf, -, rfl⟩ |
    ⟨w, i, u, hs, hf, -, he, rfl⟩
  · exact inv_idle h
  · exact inv_finish h.memory h.pc h.stack (iff_of_true rfl Cause.noConfusion) fun _ => rfl
  · have hpc := (State.fetch_eq_some hf).1
    have h2 : (s.pc + 2).toNat ≤ s.pc.toNat + 2 := toNat_add_le _ _
    exact inv_finish h.memory (by simp only [State.advance_pc, State.hold_pc, State.begin_pc]; omega)
      h.stack h.cause h.tone
  · have hpc := (State.fetch_eq_some hf).1
    rcases exec_raises_or_completes he with ⟨hr, rfl⟩ | ⟨-, hc⟩
    · exact inv_finish h.memory h.pc h.stack (iff_of_true rfl (raisedCause_ne_none hr)) fun _ => rfl
    · have hcause : u.cause = s.cause := hc.equal (f := .cause) (by decide)
      have hhalted : u.halted = s.halted := hc.halted
      exact inv_finish (hc.memory_wf h.memory) (hc.pc_le he hs hpc h.stack)
        (hc.stack_le hpc h.stack) (by rw [hhalted, hcause]; exact h.cause)
        fun hu => absurd (hu.symm.trans (hhalted.trans hs)) Bool.noConfusion

/-! ### Host operations and runs -/

/-- Settles O17: memory lists nothing at reset, and PC and the slots are below their bounds. -/
theorem resetMeetsInvariant : Obligations.ResetMeetsInvariant where
  memory := Memory.wf_reset
  pc := by decide
  stack := by decide
  cause := by decide
  tone := Bool.noConfusion
  opcode := rfl

/-- `Initialize` gives the reset values of PC, the stack, HALTED, CAUSE, TONE and the opcode register from
any state (R250, R251). -/
theorem equalBut_initialized (s : State) :
    EqualBut [.params, .mem, .fb, .draw, .draws] State.reset s.initialized := by
  unfold State.initialized
  cases s.params.fbReset <;> simp [equalBut_iff]

theorem initialized_mem (s : State) :
    s.initialized.mem = Memory.writeAll [] fontBase s.params.font.toList := by
  unfold State.initialized
  cases s.params.fbReset <;> rfl

theorem inv_initialized (s : State) : Inv s.initialized := by
  have hpc : s.initialized.pc = State.reset.pc := equalBut_initialized s .pc (by decide)
  have hstack : s.initialized.stack = State.reset.stack := equalBut_initialized s .stack (by decide)
  have hhalted : s.initialized.halted = State.reset.halted :=
    equalBut_initialized s .halted (by decide)
  have hcause : s.initialized.cause = State.reset.cause := equalBut_initialized s .cause (by decide)
  have htone : s.initialized.tone = State.reset.tone := equalBut_initialized s .tone (by decide)
  exact {
    memory := initialized_mem s ▸ Memory.wf_writeAll Memory.wf_nil _ _
    pc := hpc ▸ resetMeetsInvariant.pc
    stack := hstack ▸ resetMeetsInvariant.stack
    cause := by rw [hhalted, hcause]; exact resetMeetsInvariant.cause
    tone := fun _ => htone
    opcode := equalBut_initialized s .opcode (by decide) }

theorem inv_raise {s : State} {c : Cause} (hc : c ≠ .none) (h : Inv s) : Inv (s.raise c) :=
  ⟨h.memory, h.pc, h.stack, iff_of_true rfl hc, fun _ => rfl, h.opcode⟩

/-- INVERSION of a load that is not refused (R252, R207): LoadError, or the image copied. -/
theorem loadProgram_cases {s t : State} {source : Option (List Byte)}
    (h : s.loadProgram source = .next t) :
    (∃ r, t = s.raise (.loadError r)) ∨
      ∃ bytes, t = { s with mem := Memory.writeAll s.mem programStart bytes, report := none } := by
  unfold State.loadProgram at h
  split at h
  · cases h
  · split at h
    · exact .inl ⟨_, (Host.Outcome.next.inj h).symm⟩
    · split at h
      · exact .inl ⟨_, (Host.Outcome.next.inj h).symm⟩
      · exact .inr ⟨_, (Host.Outcome.next.inj h).symm⟩

theorem inv_loadProgram {s t : State} {source : Option (List Byte)} (hs : Inv s)
    (h : s.loadProgram source = .next t) : Inv t := by
  rcases loadProgram_cases h with ⟨r, rfl⟩ | ⟨bytes, rfl⟩
  · exact inv_raise Cause.noConfusion hs
  · exact ⟨Memory.wf_writeAll hs.memory _ _, hs.pc, hs.stack, hs.cause, hs.tone, hs.opcode⟩

/-- A tick of the host happens on a running core only, so TONE stays 0 on a halted one (R209). -/
theorem inv_timerTick {s : State} (h : Inv s) : Inv s.timerTick := by
  unfold State.timerTick
  split
  · next hrun =>
    have hrun : s.halted = false := by simp_all
    exact ⟨h.memory, h.pc, h.stack, h.cause,
      fun ht => absurd (hrun.symm.trans ht) Bool.false_ne_true, h.opcode⟩
  · exact h

/-- Settles O16: `Step` by O15, and each other operation by what it writes. -/
theorem hostOperationsKeepInvariant : Obligations.HostOperationsKeepInvariant := by
  intro op s t hs h
  cases op with
  | init => exact Host.Outcome.next.inj h ▸ inv_initialized s
  | loadProgram source => exact inv_loadProgram hs h
  | setKeys keys =>
    exact Host.Outcome.next.inj h ▸ ⟨hs.memory, hs.pc, hs.stack, hs.cause, hs.tone, hs.opcode⟩
  | step => exact stepKeepsInvariant s t hs h
  | ackFrame =>
    exact Host.Outcome.next.inj h ▸ ⟨hs.memory, hs.pc, hs.stack, hs.cause, hs.tone, hs.opcode⟩
  | timerTick => exact Host.Outcome.next.inj h ▸ inv_timerTick hs
  | readOutputs | dumpMemory => exact Host.Outcome.next.inj h ▸ hs

theorem inv_launch {s : State} (h : Launch s) : Inv s := by
  obtain ⟨before, source, hload⟩ := h
  exact hostOperationsKeepInvariant _ _ s (inv_initialized before) hload

/-- Settles O59: by the induction over a run, from a launch state. -/
theorem runsKeepInvariant : Obligations.RunsKeepInvariant := fun _ _ _ _ hlaunch hrun =>
  run_induct hostOperationsKeepInvariant hrun (inv_launch hlaunch)

end Sys2Proof
end

section
/-! PROOFS that stale stack slots are invisible (R25): executing an instruction commutes with replacing the
stack, but for the two instructions that read or write it. -/

namespace Sys2Proof

open Machine

/-- The state with other stack slots. -/
def Machine.State.withStack (s : State) (stack : Vector Word 16) : State := { s with stack := stack }

/-- The slots below SP agree with another stack's. -/
def LiveAgree (s : State) (stack : Vector Word 16) : Prop :=
  ∀ k : Fin 16, k.val < s.sp.val → stack[k] = s.stack[k]

theorem sameLiveStack_iff {s s' : State} :
    SameLiveStack s s' ↔ ∃ stack, s' = s.withStack stack ∧ LiveAgree s stack := Iff.rfl

theorem sameLiveStack_withStack {s : State} {stack : Vector Word 16} (h : LiveAgree s stack) :
    SameLiveStack s (s.withStack stack) := ⟨stack, rfl, h⟩

theorem raisesIn_withStack {i : Instr} {s : State} {stack : Vector Word 16} :
    RaisesIn (s.withStack stack) i ↔ RaisesIn s i := by
  cases i <;> exact Iff.rfl

theorem raisedCause_withStack (i : Instr) (s : State) (stack : Vector Word 16) :
    raisedCause i (s.withStack stack) = raisedCause i s := by
  cases i <;> rfl

theorem writeBoth_withStack (s : State) (x : Reg) (r : Byte) (b : Bool) (o : WriteOrder)
    (stack : Vector Word 16) : (s.withStack stack).writeBoth x r b o =
      (s.writeBoth x r b o).withStack stack := by
  have hp : (s.withStack stack).params = s.params := rfl
  unfold State.writeBoth
  rw [hp]
  cases o <;> cases s.params.vfDest <;> rfl

/-- An instruction that does not write SP neither reads nor writes a stack slot. -/
theorem exec_withStack {i : Instr} {s t : State} (hc : Completes i s t)
    (hsp : Field.sp ∉ writtenFields i) (stack : Vector Word 16) :
    exec i (s.withStack stack) = .next (t.withStack stack) := by
  cases i
  case ret | call => exact absurd (by simp [writtenFields]) hsp
  case drw | ldBVx | ldMIVx | ldVxMI =>
    obtain ⟨hfits, rfl⟩ := hc
    exact orRaise_checkRange_of_fits (s := s.withStack stack) _ (inRange_iff_accessFits.mp hfits)
  case ldVxK x =>
    rcases hc with ⟨hl, rfl⟩ | ⟨k, hl, rfl⟩
    · exact exec_ldVxK_of_none_pressed (s := s.withStack stack) x (State.leastPressed_eq_none.mp hl)
    · exact exec_ldVxK_of_leastPressed (s := s.withStack stack) x hl
  case addReg | sub | shr | subn | shl =>
    obtain rfl := Host.Outcome.next.inj hc
    exact congrArg (fun u : State => Host.Outcome.next u.advance)
      (writeBoth_withStack s _ _ _ _ stack)
  all_goals
    obtain rfl := Host.Outcome.next.inj hc
    rfl

/-- A pop reads a live slot, so both stacks give the same PC (R111). -/
theorem exec_ret_sameLiveStack {s t : State} {stack : Vector Word 16} (hlive : LiveAgree s stack)
    (hc : Completes .ret s t) : ∃ t', exec .ret (s.withStack stack) = .next t' ∧ SameLiveStack t t' := by
  obtain ⟨k, n, hk, hn, rfl⟩ := hc
  obtain ⟨n', hn', he⟩ := exec_ret_of_pos (s := s.withStack stack) k hk
  obtain rfl : n' = n := Fin.ext (hn'.trans hn.symm)
  have hslot : (s.withStack stack).stack[k] = s.stack[k] := hlive k (by omega)
  rw [hslot] at he
  refine ⟨_, he, sameLiveStack_withStack fun j hj => hlive j ?_⟩
  have hj : j.val < n'.val := hj
  omega

/-- A push writes the same word to the slot that becomes live (R110). -/
theorem exec_call_sameLiveStack {s t : State} {nnn : Addr} {stack : Vector Word 16}
    (hlive : LiveAgree s stack) (hc : Completes (.call nnn) s t) :
    ∃ t', exec (.call nnn) (s.withStack stack) = .next t' ∧ SameLiveStack t t' := by
  obtain ⟨st, n, hlt, hn, hst, rfl⟩ := hc
  obtain ⟨st', n', hn', hst', he⟩ := exec_call_of_lt (s := s.withStack stack) nnn hlt
  obtain rfl : n' = n := Fin.ext (hn'.trans hn.symm)
  refine ⟨_, he, sameLiveStack_withStack fun j hj => ?_⟩
  have hj : j.val < n'.val := hj
  change st'[j] = st[j]
  rw [hst, hst']
  exact ite_congr rfl (fun _ => rfl) fun hne => hlive j (by omega)

theorem exec_sameLiveStack {i : Instr} {s t : State} {stack : Vector Word 16}
    (hlive : LiveAgree s stack) (h : exec i s = .next t) :
    ∃ t', exec i (s.withStack stack) = .next t' ∧ SameLiveStack t t' := by
  rcases exec_raises_or_completes h with ⟨hr, rfl⟩ | ⟨-, hc⟩
  · refine ⟨_, exec_of_raisesIn (raisesIn_withStack.mpr hr), ?_⟩
    rw [raisedCause_withStack]
    exact sameLiveStack_withStack hlive
  · by_cases hsp : Field.sp ∈ writtenFields i
    · rcases sp_mem_writtenFields hsp with rfl | ⟨nnn, rfl⟩
      · exact exec_ret_sameLiveStack hlive hc
      · exact exec_call_sameLiveStack hlive hc
    · have hstack : t.stack = s.stack := equalBut_of_completes hc .stack fun hf =>
        hsp (by obtain ⟨nnn, rfl⟩ := stack_mem_writtenFields hf; simp [writtenFields])
      have hspEq : t.sp = s.sp := equalBut_of_completes hc .sp hsp
      refine ⟨_, exec_withStack hc hsp stack, sameLiveStack_withStack fun k hk => ?_⟩
      rw [hstack]
      exact hlive k (hspEq ▸ hk)

theorem finish_withStack (s : State) (stack : Vector Word 16) :
    (s.withStack stack).finish = s.finish.withStack stack := by
  rw [finish_eq, finish_eq]
  change { (if s.halted = false ∧ s.params.timerMode = .perStep then _ else _ : State) with
    opcode := none, stepped := true } = _
  split <;> rfl

theorem sameLiveStack_finish {s s' : State} (h : SameLiveStack s s') :
    SameLiveStack s.finish s'.finish := by
  obtain ⟨stack, rfl, hlive⟩ := sameLiveStack_iff.mp h
  rw [finish_withStack]
  refine sameLiveStack_withStack fun k hk => ?_
  rw [State.finish_stack]
  exact hlive k (State.finish_sp s ▸ hk)

/-- Settles O21: the halted check, the fetch and the decoder read no stack slot, and the executions
correspond. -/
theorem staleStackSlotsAreInvisible : Obligations.StaleStackSlotsAreInvisible := by
  intro s s' t hss h
  obtain ⟨stack, rfl, hlive⟩ := sameLiveStack_iff.mp hss
  rcases step_cases h with ⟨hs, rfl⟩ | ⟨hs, hf, rfl⟩ | ⟨w, hs, hf, hd, rfl⟩ |
    ⟨w, i, u, hs, hf, hd, he, rfl⟩
  · exact ⟨_, step_eq_idle (s := s.withStack stack) hs, sameLiveStack_withStack hlive⟩
  · exact ⟨_, step_eq_fetchFault (s := s.withStack stack) hs hf,
      sameLiveStack_finish (sameLiveStack_withStack hlive)⟩
  · exact ⟨_, step_of_unknown (s := s.withStack stack) hs hf hd,
      sameLiveStack_finish (sameLiveStack_withStack hlive)⟩
  · obtain ⟨u', hu', hlive'⟩ := exec_sameLiveStack (s := s.begin.hold w) hlive he
    refine ⟨u'.finish, ?_, sameLiveStack_finish hlive'⟩
    rw [step_eq_exec (s := s.withStack stack) hs hf hd]
    exact congrArg finishResult hu'

end Sys2Proof
end

section
/-! PROOFS about reset and the host operations (spec 10 section 11, spec 70). -/

namespace Sys2Proof

open Machine

/-! ### Initialize -/

/-- A font table written over memory that lists nothing: the table below 0x050 and 0 above, since the
default table, which the table covers, is as long (R66). -/
theorem read_writeAll_font (font : Vector Byte 80) (a : Nat) :
    Memory.read (Memory.writeAll [] fontBase font.toList) a = if h : a < 80 then font[a] else 0 := by
  rw [Memory.read_writeAll _ _ _ _ (by simp [memSize_eq]), fontBase_eq, if_pos (Nat.zero_le a), Nat.sub_zero]
  by_cases h : a < 80
  · simp [h]
  · simp [h, Memory.read, unlistedByte]

/-- Settles O56: by what `Initialize` writes over the reset state, and its memory. -/
theorem initializeFromAnyState : Obligations.InitializeFromAnyState := by
  intro s
  have hparams : s.initialized.params = s.params := by
    unfold State.initialized
    cases s.params.fbReset <;> rfl
  refine ⟨_, rfl, fun a => ?_, hparams, (equalBut_initialized s).sameBut, fun hz => ?_⟩
  · rw [initialized_mem]
    exact read_writeAll_font s.params.font a
  · simp only [State.initialized, hz]
    exact ⟨rfl, Frame.pixel_blank⟩

theorem read_reset (a : Nat) :
    Memory.read State.reset.mem a = if h : a < 80 then defaultFont[a] else 0 := by
  change (defaultFont[a]?).getD 0 = _
  by_cases h : a < 80
  · simp [h]
  · simp [h]

/-- Settles O55: memory as it reads with nothing listed, and every other component as it is written out. -/
theorem resetState : Obligations.ResetState :=
  ⟨read_reset, by decide, rfl, rfl, by decide, rfl, rfl, rfl, Frame.pixel_blank, rfl, by decide, rfl, rfl,
    rfl, rfl⟩

/-! ### LoadProgram -/

theorem loadProgram_of_fits {s : State} {bytes : List Byte} (hs : s.stepped = false)
    (h : bytes.length ≤ 3584) : s.loadProgram (some bytes) =
      .next { s with mem := Memory.writeAll s.mem programStart bytes, report := none } := by
  simp [State.loadProgram, hs, Nat.not_lt.mpr h]

theorem loadProgram_of_tooLong {s : State} {bytes : List Byte} (hs : s.stepped = false)
    (h : bytes.length > 3584) : s.loadProgram (some bytes) =
      .next (s.raise (.loadError (.tooLong bytes.length))) := by
  simp [State.loadProgram, hs, h]

theorem loadProgram_of_unreadable {s : State} (hs : s.stepped = false) :
    s.loadProgram none = .next (s.raise (.loadError .unreadable)) := by
  simp [State.loadProgram, hs]

theorem loadProgram_of_stepped {s : State} (source : Option (List Byte)) (hs : s.stepped = true) :
    s.loadProgram source = .refused .lateLoad := by
  simp [State.loadProgram, hs]

theorem equalBut_raise (s : State) (c : Cause) :
    EqualBut [.halted, .cause, .tone, .report] s (s.raise c) := by
  simp [equalBut_iff]

theorem equalBut_setMem_report (s : State) (m : Memory) (r : Option Report) :
    EqualBut [.mem, .report] s { s with mem := m, report := r } := by
  simp [equalBut_iff]

/-- A block written at `a` reads back at `a + j` (R55, R59). -/
theorem read_writeAll_of_getElem? (m : Memory) {a j : Nat} {b : Byte} {bytes : List Byte}
    (hfits : a + bytes.length ≤ 4096) (h : bytes[j]? = some b) :
    Memory.read (Memory.writeAll m a bytes) (a + j) = b := by
  rw [Memory.read_writeAll _ _ _ _ hfits, if_pos (Nat.le_add_right a j), Nat.add_sub_cancel_left, h]
  rfl

theorem step_stepped {s t : State} (h : step s = .next t) : t.stepped = true := by
  rcases step_cases h with ⟨-, rfl⟩ | ⟨-, -, rfl⟩ | ⟨w, -, -, -, rfl⟩ | ⟨w, i, u, -, -, -, -, rfl⟩
  all_goals rfl

/-- Settles O57: the four ends of a load, and that every step is recorded. -/
theorem loadProgramOutcomes : Obligations.LoadProgramOutcomes := by
  refine ⟨fun s bytes hs hlen => ⟨_, loadProgram_of_fits hs hlen, fun j b hj => ?_, fun a ha => ?_,
      (equalBut_setMem_report s _ _).sameBut⟩,
    fun s bytes hs hlen => ⟨_, loadProgram_of_tooLong hs hlen, rfl, rfl, rfl, rfl,
      (equalBut_raise s _).sameBut⟩,
    fun s hs => ⟨_, loadProgram_of_unreadable hs, rfl, rfl, rfl, rfl, (equalBut_raise s _).sameBut⟩,
    fun s source hs => loadProgram_of_stepped source hs, fun s t h => step_stepped h⟩
  · exact read_writeAll_of_getElem? s.mem (by rw [programStart_eq]; omega) hj
  · exact Memory.read_writeAll_of_outside s.mem _ _ bytes ha

/-! ### The other host operations -/

theorem timerTick_of_running {s : State} (hs : s.halted = false)
    (hm : s.params.timerMode = .externalTick) : s.timerTick = s.tick := by
  simp [State.timerTick, hs, hm]

theorem timerTick_of_not_running {s : State} (h : s.halted = true ∨ s.params.timerMode = .perStep) :
    s.timerTick = s := by
  rcases h with h | h <;> simp [State.timerTick, h]

theorem equalBut_tick (s : State) : EqualBut [.dt, .st, .tone] s s.tick := by
  simp [equalBut_iff]

theorem tick_tone_iff (s : State) : s.tick.tone = true ↔ s.st.toNat ≠ 0 := by
  simp [← BitVec.toNat_inj]

theorem equalBut_setKey (s : State) (keys : Vector Bool 16) :
    EqualBut [.key] s { s with key := keys } := by
  simp [equalBut_iff]

theorem equalBut_setDraw (s : State) (draw : Bool) : EqualBut [.draw] s { s with draw := draw } := by
  simp [equalBut_iff]

theorem dumpMemory_getElem? (s : State) {a : Nat} (h : a < 4096) :
    s.dumpMemory[a]? = some (Memory.read s.mem a) := by
  rw [State.dumpMemory, Memory.getElem?_readAll, if_pos h, Nat.zero_add]

/-- Settles O58: each operation by what it writes. -/
theorem hostLatchOperations : Obligations.HostLatchOperations := by
  refine ⟨fun s keys => ⟨_, rfl, fun k => rfl, (equalBut_setKey s keys).sameBut⟩,
    fun s => ⟨_, rfl, rfl, (equalBut_setDraw s false).sameBut⟩, fun s hs hm => ?_, fun s h => ?_,
    fun s => ⟨s, rfl, SameBut.refl s⟩,
    fun s => ⟨s, rfl, SameBut.refl s, fun a ha => dumpMemory_getElem? s ha⟩⟩
  · exact ⟨s.tick, congrArg Host.Outcome.next (timerTick_of_running hs hm), toNat_countdown s.dt,
      toNat_countdown s.st, tick_tone_iff s, (equalBut_tick s).sameBut⟩
  · exact ⟨s, congrArg Host.Outcome.next (timerTick_of_not_running h), SameBut.refl s⟩

/-- Settles O60: a step of a halted core is `idle`, a load raises again or leaves HALTED, and the other
operations do not write HALTED or CAUSE. -/
theorem onlyInitializeClearsHalted : Obligations.OnlyInitializeClearsHalted := by
  intro op s t hs hop h
  cases op with
  | init => exact absurd rfl hop
  | loadProgram source =>
    refine ⟨?_, fun hne => absurd rfl (hne source)⟩
    rcases loadProgram_cases h with ⟨r, rfl⟩ | ⟨bytes, rfl⟩
    · rfl
    · exact hs
  | step =>
    obtain rfl := Host.Outcome.next.inj ((step_eq_idle hs).symm.trans h)
    exact ⟨hs, fun _ => rfl⟩
  | timerTick =>
    obtain rfl := Host.Outcome.next.inj h
    rw [timerTick_of_not_running (.inl hs)]
    exact ⟨hs, fun _ => rfl⟩
  | setKeys | ackFrame | readOutputs | dumpMemory =>
    obtain rfl := Host.Outcome.next.inj h
    exact ⟨hs, fun _ => rfl⟩

end Sys2Proof
end

section
/-! PROOFS of the words that are encodings (R74), by the round trip. -/

namespace Sys2Proof

open Machine

theorem decodeWord_of_eq_encode {p : Params} {w : Word} {i : Instr} (hi : WellFormed p i = true)
    (hw : w = encode i) : decodeWord p w = some i :=
  hw ▸ decodeWord_encode hi

/-- `GXYN` as its fixed nibbles with X and Y filled in. -/
theorem ofNat_fixed_add_eq_wordXYN (g : Nat) (x y : Reg) (n : Nibble) :
    BitVec.ofNat 16 (g * 4096 + n.toNat + x.val * 256 + y.val * 16) = wordXYN g x y n :=
  congrArg (BitVec.ofNat 16) (by omega)

end Sys2Proof
end

section
/-! PROOFS of the flow family (spec 41) and of `9XY0`: `00EE`, `2NNN`, `BNNN`. -/

namespace Sys2Proof

open Machine

theorem equalBut_setSp_pc (s : State) (n : Fin 17) (w : Word) :
    EqualBut [.pc, .sp] s { s with sp := n, pc := w } := by
  simp [equalBut_iff]

theorem equalBut_setStack_sp_pc (s : State) (st : Vector Word 16) (n : Fin 17) (w : Word) :
    EqualBut [.stack, .sp, .pc] s { s with stack := st, sp := n, pc := w } := by
  simp [equalBut_iff]

/-- Settles O25: the word is the encoder's `00EE` and under DECODE_STRICT no other is; the execution is a
pop into PC, or the raise. -/
theorem returnFromSubroutine : Obligations.ReturnFromSubroutine := by
  refine ⟨fun p => decodeWord_of_eq_encode rfl rfl,
    fun p w hp h => (strictDecodingIsInjective p w .ret hp h).1.symm, fun s k hk => ?_,
    fun s h => exec_ret_of_empty h⟩
  obtain ⟨n, hn, he⟩ := exec_ret_of_pos k hk
  exact ⟨_, he, rfl, hn, (equalBut_setSp_pc s n _).sameBut⟩

/-- Settles O27: the word is the encoder's `2NNN`; the execution is a push and a jump, or the raise. -/
theorem callSubroutine : Obligations.CallSubroutine := by
  refine ⟨fun p nnn => decodeWord_of_eq_encode rfl rfl, fun s nnn k hk => ?_,
    fun s nnn h => exec_call_of_full nnn h⟩
  obtain ⟨st, n, hn, hst, he⟩ := exec_call_of_lt nnn (hk ▸ k.isLt)
  exact ⟨_, he, (hst k).trans (if_pos hk.symm),
    fun j hj => (hst j).trans (if_neg fun h => hj (Fin.ext (h.trans hk))), hk ▸ hn, toNat_addrOf nnn,
    (equalBut_setStack_sp_pc s st n _).sameBut⟩

/-- Settles O28: the slot the call wrote is the one the return pops. -/
theorem callThenReturn : Obligations.CallThenReturn := by
  intro s t u nnn hlt hcall hsp hlive
  obtain ⟨st, n, hn, hst, he⟩ := exec_call_of_lt nnn hlt
  obtain rfl := Host.Outcome.next.inj (he.symm.trans hcall)
  have hsp : u.sp.val = s.sp.val + 1 := (congrArg Fin.val hsp).trans hn
  have hlive : ∀ k : Fin 16, k.val < n.val → u.stack[k] = st[k] := hlive
  obtain ⟨m, hm, hret⟩ := exec_ret_of_pos ⟨s.sp.val, hlt⟩ hsp
  refine ⟨_, hret, ?_, Fin.ext hm, fun k hk => ?_⟩
  · exact (hlive ⟨s.sp.val, hlt⟩ (by simp only; omega)).trans ((hst _).trans (if_pos rfl))
  · exact (hlive k (by omega)).trans ((hst k).trans (if_neg (by omega)))

theorem exec_jpV0 (nnn : Addr) (s : State) :
    exec (.jpV0 nnn) s = .next (s.goto (addrOf nnn + wordOf (s.readV 0))) := rfl

/-- Settles O29: the word is the encoder's `BNNN`, and the state after it is a jump to the sum. -/
theorem jumpWithOffset : Obligations.JumpWithOffset :=
  ⟨fun _ _ => decodeWord_of_eq_encode rfl rfl, fun s nnn =>
    ⟨_, exec_jpV0 nnn s, toNat_addrOf_add_wordOf nnn _, sameBut_goto s _⟩⟩

theorem exec_sneReg (x y : Reg) (s : State) :
    exec (.sneReg x y) s = .next (s.skipIf (s.readV x != s.readV y)) := rfl

/-- Settles O33: the word is the encoder's `9XY0`, which HAS_9XY0 decides, and the state after it is
`Skip(VX != VY)`. -/
theorem skipIfRegistersDiffer : Obligations.SkipIfRegistersDiffer :=
  ⟨decodeWord_wordXYN_nine, fun _ _ => decodeWord_eq_none_of_lacking_nine,
    fun s x y => skip_of_exec_eq_skipIf (exec_sneReg x y s) bne_iff_ne⟩

end Sys2Proof
end

section
/-! PROOFS of the ALU family (spec 43): `8XY1` to `8XYE`, `CXNN`. -/

namespace Sys2Proof

open Machine

/-! ### Logic operations -/

theorem exec_orReg (x y : Reg) (s : State) :
    exec (.orReg x y) s = .next (s.writeV x (s.readV x ||| s.readV y)).advance := rfl

theorem exec_andReg (x y : Reg) (s : State) :
    exec (.andReg x y) s = .next (s.writeV x (s.readV x &&& s.readV y)).advance := rfl

theorem exec_xorReg (x y : Reg) (s : State) :
    exec (.xorReg x y) s = .next (s.writeV x (s.readV x ^^^ s.readV y)).advance := rfl

/-- Settles O37: each is a write to VX, whose bits the operation on bytes gives one by one. -/
theorem logicOperations : Obligations.LogicOperations :=
  ⟨fun _ x y => decodeWord_of_eq_encode rfl (ofNat_fixed_add_eq_wordXYN 0x8 x y 0x1),
    fun _ x y => decodeWord_of_eq_encode rfl (ofNat_fixed_add_eq_wordXYN 0x8 x y 0x2),
    fun _ x y => decodeWord_of_eq_encode rfl (ofNat_fixed_add_eq_wordXYN 0x8 x y 0x3),
    fun s x y => write_of_exec_eq_writeV
      (P := fun r => ∀ b < 8, r.getLsbD b = ((s.readV x).getLsbD b || (s.readV y).getLsbD b))
      (exec_orReg x y s) fun _ _ => BitVec.getLsbD_or,
    fun s x y => write_of_exec_eq_writeV
      (P := fun r => ∀ b < 8, r.getLsbD b = ((s.readV x).getLsbD b && (s.readV y).getLsbD b))
      (exec_andReg x y s) fun _ _ => BitVec.getLsbD_and,
    fun s x y => write_of_exec_eq_writeV
      (P := fun r => ∀ b < 8, r.getLsbD b = ((s.readV x).getLsbD b != (s.readV y).getLsbD b))
      (exec_xorReg x y s) fun _ _ => BitVec.getLsbD_xor⟩

/-! ### Results with a flag -/

theorem readV_writeBoth_result {s : State} {x : Reg} (r : Byte) (b : Bool)
    (h : x ≠ vf ∨ s.params.vfDest = .tableOrder) :
    (s.writeBoth x r b .flagThenResult).readV x = r := by
  rw [State.readV_writeBoth]
  rcases h with h | h <;> simp [h]

theorem readV_writeBoth_flag {s : State} {x : Reg} (r : Byte) (b : Bool)
    (h : x ≠ vf ∨ s.params.vfDest = .flagLast) :
    (s.writeBoth x r b .flagThenResult).readV vf = flagByte b := by
  rw [State.readV_writeBoth]
  rcases h with h | h
  · simp [h.symm]
  · simp [h]

theorem equalBut_writeBoth_advance (s : State) (x : Reg) (r : Byte) (b : Bool) (o : WriteOrder) :
    EqualBut [.v, .pc] s (s.writeBoth x r b o).advance := by
  simp [equalBut_iff]

/-- An instruction that ends in `WriteBoth(X, r, b)`, the flag first in its row, does what the rules of
spec 43 say, for any properties `P` and `Q` of the result and the flag (R129). -/
theorem write_of_exec_eq_writeBoth {i : Instr} {s : State} {x : Reg} {r : Byte} {b : Bool}
    {P Q : Byte → Prop} (he : exec i s = .next (s.writeBoth x r b .flagThenResult).advance)
    (hr : P r) (hb : Q (flagByte b)) :
    ∃ t, exec i s = .next t ∧
      (x ≠ vf ∨ s.params.vfDest = .tableOrder → P (t.readV x)) ∧
      (x ≠ vf ∨ s.params.vfDest = .flagLast → Q (t.readV vf)) ∧
      t.pc = s.pc + 2 ∧ RegsSameBut [x, vf] s t ∧ SameBut [.v, .pc] s t :=
  ⟨_, he, fun h => (readV_writeBoth_result r b h).symm ▸ hr,
    fun h => (readV_writeBoth_flag r b h).symm ▸ hb,
    congrArg (· + 2) (State.writeBoth_pc s x r b _), regsSameBut_writeBoth s x r b _,
    (equalBut_writeBoth_advance s x r b _).sameBut⟩

theorem toNat_flagByte_decide (P : Prop) [Decidable P] :
    (flagByte (decide P)).toNat = if P then 1 else 0 := by
  by_cases h : P <;> simp [flagByte, h]

theorem toNat_sub_byte (a b : Byte) : (a - b).toNat = (a.toNat + 256 - b.toNat) % 256 := by
  have := b.isLt
  rw [BitVec.toNat_sub]
  omega

theorem toNat_shiftedOutRight (a : Byte) : (flagByte (shiftedOutRight a)).toNat = a.toNat % 2 := by
  rw [shiftedOutRight, BitVec.getLsbD, Nat.testBit_zero, toNat_flagByte_decide]
  split <;> omega

theorem toNat_shiftedOutLeft (a : Byte) : (flagByte (shiftedOutLeft a)).toNat = a.toNat / 128 := by
  have := a.isLt
  rw [shiftedOutLeft, BitVec.getLsbD, Nat.testBit_eq_decide_div_mod_eq, toNat_flagByte_decide]
  split <;> omega

theorem toNat_half (a : Byte) : (a >>> 1).toNat = a.toNat / 2 := by
  rw [BitVec.toNat_ushiftRight, Nat.shiftRight_eq_div_pow, pow_one]

theorem toNat_double (a : Byte) : (a <<< 1).toNat = a.toNat * 2 % 256 := by
  rw [BitVec.toNat_shiftLeft, Nat.shiftLeft_eq, pow_one]

theorem exec_addReg (x y : Reg) (s : State) : exec (.addReg x y) s =
    .next (s.writeBoth x (s.readV x + s.readV y) (carryOut (s.readV x) (s.readV y))
      .resultThenFlag).advance := rfl

theorem exec_sub (x y : Reg) (s : State) : exec (.sub x y) s =
    .next (s.writeBoth x (s.readV x - s.readV y) (noBorrow (s.readV x) (s.readV y))
      .flagThenResult).advance := rfl

theorem exec_shr (x y : Reg) (s : State) : exec (.shr x y) s =
    .next (s.writeBoth x (s.readV x >>> 1) (shiftedOutRight (s.readV x)) .flagThenResult).advance := rfl

theorem exec_subn (x y : Reg) (s : State) : exec (.subn x y) s =
    .next (s.writeBoth x (s.readV y - s.readV x) (noBorrow (s.readV y) (s.readV x))
      .flagThenResult).advance := rfl

theorem exec_shl (x y : Reg) (s : State) : exec (.shl x y) s =
    .next (s.writeBoth x (s.readV x <<< 1) (shiftedOutLeft (s.readV x)) .flagThenResult).advance := rfl

/-- Settles O38: the carry is the later write in the row, so it is final at X = F under both choices. -/
theorem addWithCarryOut : Obligations.AddWithCarryOut := by
  refine ⟨fun _ x y => decodeWord_of_eq_encode rfl (ofNat_fixed_add_eq_wordXYN 0x8 x y 0x4),
    fun s x y => ⟨_, exec_addReg x y s, fun hx => ?_, ?_,
      congrArg (· + 2) (State.writeBoth_pc s _ _ _ _), regsSameBut_writeBoth s x _ _ _,
      (equalBut_writeBoth_advance s x _ _ _).sameBut⟩⟩
  · rw [State.readV_advance, State.readV_writeBoth, if_pos (.inl rfl), if_neg hx, if_pos rfl]
    exact BitVec.toNat_add _ _
  · rw [State.readV_advance, State.readV_writeBoth, if_pos (.inl rfl), if_pos rfl]
    exact toNat_flagByte_decide _

/-- Settles O39: `WriteBoth` of the difference and the no-borrow flag. -/
theorem subtractWithNoBorrow : Obligations.SubtractWithNoBorrow :=
  ⟨fun _ x y => decodeWord_of_eq_encode rfl (ofNat_fixed_add_eq_wordXYN 0x8 x y 0x5),
    fun s x y => write_of_exec_eq_writeBoth
      (P := fun r => r.toNat = ((s.readV x).toNat + 256 - (s.readV y).toNat) % 256)
      (Q := fun f => f.toNat = if (s.readV x).toNat ≥ (s.readV y).toNat then 1 else 0)
      (exec_sub x y s) (toNat_sub_byte _ _) (toNat_flagByte_decide _)⟩

/-- Settles O40: `WriteBoth` of the half and the bit shifted out. -/
theorem shiftRightByOne : Obligations.ShiftRightByOne :=
  ⟨fun _ x y => decodeWord_of_eq_encode rfl (ofNat_fixed_add_eq_wordXYN 0x8 x y 0x6),
    fun s x y => write_of_exec_eq_writeBoth
      (P := fun r => r.toNat = (s.readV x).toNat / 2) (Q := fun f => f.toNat = (s.readV x).toNat % 2)
      (exec_shr x y s) (toNat_half _) (toNat_shiftedOutRight _)⟩

/-- Settles O41: `WriteBoth` of the reversed difference and its no-borrow flag. -/
theorem subtractReversed : Obligations.SubtractReversed :=
  ⟨fun _ x y => decodeWord_of_eq_encode rfl (ofNat_fixed_add_eq_wordXYN 0x8 x y 0x7),
    fun s x y => write_of_exec_eq_writeBoth
      (P := fun r => r.toNat = ((s.readV y).toNat + 256 - (s.readV x).toNat) % 256)
      (Q := fun f => f.toNat = if (s.readV y).toNat ≥ (s.readV x).toNat then 1 else 0)
      (exec_subn x y s) (toNat_sub_byte _ _) (toNat_flagByte_decide _)⟩

/-- Settles O42: `WriteBoth` of the double and the bit shifted out. -/
theorem shiftLeftByOne : Obligations.ShiftLeftByOne :=
  ⟨fun _ x y => decodeWord_of_eq_encode rfl (ofNat_fixed_add_eq_wordXYN 0x8 x y 0xE),
    fun s x y => write_of_exec_eq_writeBoth
      (P := fun r => r.toNat = (s.readV x).toNat * 2 % 256)
      (Q := fun f => f.toNat = (s.readV x).toNat / 128)
      (exec_shl x y s) (toNat_double _) (toNat_shiftedOutLeft _)⟩

/-! ### Random -/

theorem exec_rnd (x : Reg) (nn : Byte) (s : State) : exec (.rnd x nn) s =
    .next ({ s with draws := s.draws + 1 }.writeV x (nn &&& s.randomByte)).advance := rfl

theorem randomByte_of_free {s : State} (h : s.params.random = .free) :
    s.randomByte = Config.randomByte s.draws := by
  simp only [State.randomByte, h]

theorem randomByte_of_supplied {s : State} {bytes : List Byte} {b : Byte}
    (h : s.params.random = .supplied bytes) (hb : bytes[s.draws]? = some b) : s.randomByte = b := by
  simp only [State.randomByte, h, hb, Option.getD_some]

/-- Settles O43: the write of NN AND the draw's byte to VX, with one more draw counted. -/
theorem randomMasked : Obligations.RandomMasked := by
  refine ⟨fun _ _ _ => decodeWord_of_eq_encode rfl rfl, fun s x nn => ?_⟩
  have hread : ({ s with draws := s.draws + 1 }.writeV x (nn &&& s.randomByte)).advance.readV x =
      nn &&& s.randomByte := State.readV_writeV_self _ _ _
  have hframe : EqualBut [.v, .draws, .pc] s
      ({ s with draws := s.draws + 1 }.writeV x (nn &&& s.randomByte)).advance := by
    simp [equalBut_iff]
  refine ⟨_, exec_rnd x nn s, fun h => ?_, fun bytes b h hb => ?_, fun b _ hnn => ?_, rfl, rfl,
    regsSameBut_writeV { s with draws := s.draws + 1 } x _, hframe.sameBut⟩
  · rw [hread, randomByte_of_free h]
  · rw [hread, randomByte_of_supplied h hb]
  · rw [hread, BitVec.getLsbD_and, hnn, Bool.false_and]

end Sys2Proof
end

section
/-! PROOFS of the index family (spec 44): `FX1E`, `FX33`, `FX55`, `FX65`; and of `FX18` (spec 45). -/

namespace Sys2Proof

open Machine

theorem exec_addIVx (x : Reg) (s : State) :
    exec (.addIVx x) s = .next { s with i := s.i + wordOf (s.readV x) }.advance := rfl

theorem toNat_add_wordOf (w : Word) (b : Byte) :
    (w + wordOf b).toNat = (w.toNat + b.toNat) % 65536 := by
  have := b.isLt
  rw [BitVec.toNat_add, wordOf, BitVec.toNat_setWidth]
  omega

/-- Settles O45: the word is the encoder's `FX1E`, and the state after it has the 16-bit sum in I. -/
theorem addToIndex : Obligations.AddToIndex :=
  ⟨fun _ x => decodeWord_of_eq_encode rfl (ofNat_fixed_add_eq_wordXNN 0xF x 0x1E),
    fun s x => index_of_exec_eq_setI (exec_addIVx x s) (toNat_add_wordOf s.i (s.readV x))⟩

/-! ### Memory transfers -/

theorem accessFits_succ {s : State} {n : Nat} : AccessFits s (n + 1) ↔ s.i.toNat + n ≤ 0xFFF := by
  rw [AccessFits]
  omega

theorem equalBut_setMem_advance (s : State) (m : Memory) :
    EqualBut [.mem, .pc] s { s with mem := m }.advance := by
  simp [equalBut_iff]

theorem equalBut_setV_advance (s : State) (v : Vector Byte 16) :
    EqualBut [.v, .pc] s { s with v := v }.advance := by
  simp [equalBut_iff]

theorem exec_ldBVx_of_fits {s : State} (x : Reg) (h : AccessFits s 3) : exec (.ldBVx x) s =
    .next { s with mem := Memory.writeAll s.mem s.i.toNat (bcdDigits (s.readV x)) }.advance :=
  orRaise_checkRange_of_fits _ h

theorem exec_ldMIVx_of_fits {s : State} {x : Reg} (h : AccessFits s (x.val + 1)) :
    exec (.ldMIVx x) s =
      .next { s with mem := Memory.writeAll s.mem s.i.toNat (s.regBlock x) }.advance :=
  orRaise_checkRange_of_fits _ h

theorem exec_ldVxMI_of_fits {s : State} {x : Reg} (h : AccessFits s (x.val + 1)) :
    exec (.ldVxMI x) s = .next { s with v := s.loadBlock x }.advance :=
  orRaise_checkRange_of_fits _ h

/-- The digits as they stand in the block written (R153). -/
theorem bcdDigits_eq (b : Byte) : ∃ d₀ d₁ d₂ : Byte, bcdDigits b = [d₀, d₁, d₂] ∧
    d₀.toNat = b.toNat / 100 ∧ d₁.toNat = b.toNat / 10 % 10 ∧ d₂.toNat = b.toNat % 10 := by
  have := b.isLt
  refine ⟨_, _, _, rfl, ?_, ?_, ?_⟩
  all_goals
    rw [BitVec.toNat_ofNat]
    omega

/-- Settles O47: the three digits are the block written, and no byte outside it changes. -/
theorem storeDecimalDigits : Obligations.StoreDecimalDigits := by
  refine ⟨fun _ x => decodeWord_of_eq_encode rfl (ofNat_fixed_add_eq_wordXNN 0xF x 0x33),
    fun s x hfits => ?_,
    fun s x h => orRaise_checkRange_of_not_fits _ (accessFits_succ.not.mpr (Nat.not_le.mpr h))⟩
  obtain ⟨d₀, d₁, d₂, hdigits, h₀, h₁, h₂⟩ := bcdDigits_eq (s.readV x)
  have hexec := exec_ldBVx_of_fits x (accessFits_succ.mpr hfits)
  rw [hdigits] at hexec
  have hread : ∀ (j : Nat) (d : Byte), [d₀, d₁, d₂][j]? = some d →
      Memory.read (Memory.writeAll s.mem s.i.toNat [d₀, d₁, d₂]) (s.i.toNat + j) = d := fun j d =>
    read_writeAll_of_getElem? s.mem (by simp only [List.length_cons, List.length_nil]; omega)
  exact ⟨_, hexec, (congrArg BitVec.toNat (hread 0 d₀ rfl)).trans h₀,
    (congrArg BitVec.toNat (hread 1 d₁ rfl)).trans h₁,
    (congrArg BitVec.toNat (hread 2 d₂ rfl)).trans h₂,
    fun a ha => Memory.read_writeAll_of_outside s.mem _ a _ ha, rfl,
    (equalBut_setMem_advance s _).sameBut⟩

/-- Settles O48: V0 to VX are the block written, and no byte outside it changes. -/
theorem storeRegisterBlock : Obligations.StoreRegisterBlock := by
  refine ⟨fun _ x => decodeWord_of_eq_encode rfl (ofNat_fixed_add_eq_wordXNN 0xF x 0x55),
    fun s x hfits => ⟨_, exec_ldMIVx_of_fits (accessFits_succ.mpr hfits), fun k hk => ?_,
      fun a ha => ?_, rfl, (equalBut_setMem_advance s _).sameBut⟩,
    fun s x h => orRaise_checkRange_of_not_fits _ (accessFits_succ.not.mpr (Nat.not_le.mpr h))⟩
  · exact read_writeAll_of_getElem? s.mem (by rw [State.regBlock_length]; omega)
      (s.getElem?_regBlock x k hk)
  · exact Memory.read_writeAll_of_outside s.mem _ a _ (by rwa [State.regBlock_length])

/-- Settles O49: the registers up to VX are the bytes at I upwards, and those above are as before. -/
theorem loadRegisterBlock : Obligations.LoadRegisterBlock :=
  ⟨fun _ x => decodeWord_of_eq_encode rfl (ofNat_fixed_add_eq_wordXNN 0xF x 0x65),
    fun s x hfits => ⟨_, exec_ldVxMI_of_fits (accessFits_succ.mpr hfits),
      fun k hk => (s.readV_loadBlock x k).trans (if_pos hk),
      fun k hk => (s.readV_loadBlock x k).trans (if_neg (not_le.mpr hk)), rfl,
      (equalBut_setV_advance s _).sameBut⟩,
    fun _ _ h => orRaise_checkRange_of_not_fits _ (accessFits_succ.not.mpr (Nat.not_le.mpr h))⟩

/-! ### The sound timer -/

theorem exec_ldSTVx (x : Reg) (s : State) :
    exec (.ldSTVx x) s = .next { s with st := s.readV x }.advance := rfl

theorem equalBut_setSt_advance (s : State) (b : Byte) :
    EqualBut [.st, .pc] s { s with st := b }.advance := by
  simp [equalBut_iff]

/-- Settles O54: the execution has ST = VX, and the same step's tick sounds the tone from that value. -/
theorem setSoundTimer : Obligations.SetSoundTimer :=
  ⟨fun _ x => decodeWord_of_eq_encode rfl (ofNat_fixed_add_eq_wordXNN 0xF x 0x18),
    fun s x => ⟨_, exec_ldSTVx x s, rfl, rfl, (equalBut_setSt_advance s _).sameBut⟩,
    fun _ x _ hf hm => ⟨_, step_of_fetches hf (exec_ldSTVx x _),
      toNat_finish_st_of_perStep hf.running hm, finish_tone_of_perStep hf.running hm⟩⟩

end Sys2Proof
end

section
/-! PROOFS of the display family (spec 40): `DXYN`. -/

namespace Sys2Proof

open Machine

/-! ### What a sprite covers -/

/-- The 1 bits on their way to a pixel are those that `SpriteCovers` names (R100). -/
theorem mem_spriteSteps_iff_spriteCovers {s : State} {x y : Reg} {n : Nat} {px : Fin 64}
    {py : Fin 32} :
    (px, py, true) ∈ spriteSteps (s.readV x) (s.readV y) 0 (Memory.readAll s.mem s.i.toNat n) ↔
      SpriteCovers s x y n px py := by
  rw [mem_spriteSteps]
  constructor
  · rintro ⟨k, c, row, hrow, hc, hp⟩
    obtain ⟨hpx, hpy, hbit⟩ : px = spriteColumn (s.readV x) c ∧ py = spriteRow (s.readV y) (0 + k) ∧
        true = spriteBit row c := by simpa only [Prod.mk.injEq] using hp
    rw [Memory.getElem?_readAll] at hrow
    split at hrow
    · next hk =>
      obtain rfl := Option.some.inj hrow
      rw [Nat.zero_add] at hpy
      exact ⟨k, c, hk, hc, hbit.symm, congrArg Fin.val hpx, congrArg Fin.val hpy⟩
    · cases hrow
  · rintro ⟨r, c, hr, hc, hbit, hpx, hpy⟩
    refine ⟨r, c, _, (Memory.getElem?_readAll _ _ _ _).trans (if_pos hr), hc, ?_⟩
    rw [Nat.zero_add]
    exact Prod.ext (Fin.ext hpx) (Prod.ext (Fin.ext hpy) hbit.symm)

/-- A 1 bit of the sprite lands on a pixel that is set. -/
def Collides (s : State) (x y : Reg) (n : Nat) : Prop :=
  ∃ px py, SpriteCovers s x y n px py ∧ Frame.pixel s.fb px py = true

/-- DRAWING, said once: a pixel is flipped where the sprite covers it, and the collision bit says whether
a covered pixel was set (R101, R103). -/
theorem drawn_spec (s : State) (x y : Reg) (n : Nibble) :
    (∀ px py, Frame.pixel (s.drawn x y n.toNat).1 px py = true ↔
      Xor (Frame.pixel s.fb px py = true) (SpriteCovers s x y n.toNat px py)) ∧
    ((s.drawn x y n.toNat).2 = true ↔ Collides s x y n.toNat) := by
  have hlen : (Memory.readAll s.mem s.i.toNat n.toNat).length ≤ 32 := by
    have := n.isLt
    rw [Memory.readAll_length]
    omega
  obtain ⟨hpix, hcol⟩ := drawSteps_spec _ (s.fb, false)
    (spriteSteps_pairwise (s.readV x) (s.readV y) 0 _ hlen)
  rw [State.drawn, drawRows_eq_drawSteps]
  refine ⟨fun px py => ?_, ?_⟩
  · rw [hpix, ← mem_spriteSteps_iff_spriteCovers, Xor]
    cases Frame.pixel s.fb px py <;> simp
  · rw [hcol]
    simp only [mem_spriteSteps_iff_spriteCovers, Collides, Bool.false_eq_true, false_or]

/-! ### The instruction -/

theorem exec_drw_of_fits {s : State} (x y : Reg) {n : Nibble} (h : AccessFits s n.toNat) :
    exec (.drw x y n) s = .next ({ s with fb := (s.drawn x y n.toNat).1, draw := true }.writeV vf
      (flagByte (s.drawn x y n.toNat).2)).advance :=
  orRaise_checkRange_of_fits _ h

theorem flagByte_cases {b : Bool} {P : Prop} (h : b = true ↔ P) :
    flagByte b = 1 ∧ P ∨ flagByte b = 0 ∧ ¬P := by
  cases b with
  | true => exact .inl ⟨rfl, h.mp rfl⟩
  | false => exact .inr ⟨rfl, fun hp => Bool.false_ne_true (h.mpr hp)⟩

/-- What `DXYN` does where its access fits (R103). -/
theorem exec_drw_spec {s : State} (x y : Reg) {n : Nibble} (h : AccessFits s n.toNat) :
    ∃ t, exec (.drw x y n) s = .next t ∧
      (∀ px py, Frame.pixel t.fb px py = true ↔
        Xor (Frame.pixel s.fb px py = true) (SpriteCovers s x y n.toNat px py)) ∧
      (t.readV vf = 1 ∧ Collides s x y n.toNat ∨ t.readV vf = 0 ∧ ¬Collides s x y n.toNat) ∧
      t.draw = true ∧ t.pc = s.pc + 2 ∧ RegsSameBut [vf] s t ∧
      EqualBut [.fb, .draw, .v, .pc] s t := by
  obtain ⟨hpix, hcol⟩ := drawn_spec s x y n
  refine ⟨_, exec_drw_of_fits x y h, hpix, ?_, rfl, rfl, ?_, by simp [equalBut_iff]⟩
  · rw [State.readV_advance, State.readV_writeV_self]
    exact flagByte_cases hcol
  · exact regsSameBut_writeV { s with fb := (s.drawn x y n.toNat).1, draw := true } vf _

/-- Settles O23: the word is the encoder's `DXYN`; the execution is the drawing, or the raise. -/
theorem drawSpriteXorsAndCollides : Obligations.DrawSpriteXorsAndCollides := by
  refine ⟨fun _ _ _ _ => decodeWord_of_eq_encode rfl rfl, fun s x y n h => ?_,
    fun s x y n h => orRaise_checkRange_of_not_fits _ h⟩
  obtain ⟨t, he, hpix, hvf, hdraw, hpc, hregs, hframe⟩ := exec_drw_spec x y h
  exact ⟨t, he, hpix, hvf, hdraw, hpc, hregs, hframe.sameBut⟩

/-! ### Drawing twice -/

/-- What a sprite covers depends on its bytes and on its place modulo the screen's size (R100). -/
theorem spriteCovers_congr {s t : State} {x y : Reg} {n : Nat} {px : Fin 64} {py : Fin 32}
    (hmem : t.mem = s.mem) (hi : t.i = s.i)
    (hx : (t.readV x).toNat % 64 = (s.readV x).toNat % 64)
    (hy : (t.readV y).toNat % 32 = (s.readV y).toNat % 32) :
    SpriteCovers t x y n px py ↔ SpriteCovers s x y n px py := by
  simp only [SpriteCovers, hmem, hi, hx, hy]

/-- A sprite covers some pixel exactly when it has a 1 bit. -/
theorem exists_spriteCovers_iff {s : State} {x y : Reg} {n : Nat} :
    (∃ px py, SpriteCovers s x y n px py) ↔
      ∃ r c : Nat, r < n ∧ c < 8 ∧ (Memory.read s.mem (s.i.toNat + r)).getLsbD c = true := by
  constructor
  · rintro ⟨px, py, r, c, hr, hc, hbit, -, -⟩
    exact ⟨r, 7 - c, hr, by omega, hbit⟩
  · rintro ⟨r, c, hr, hc, hbit⟩
    refine ⟨spriteColumn (s.readV x) (7 - c), spriteRow (s.readV y) r, r, 7 - c, hr, by omega, ?_,
      rfl, rfl⟩
    rwa [Nat.sub_sub_self (by omega)]

theorem xor_xor_cancel_right_iff {P Q : Prop} : Xor (Xor P Q) Q ↔ P := by
  unfold Xor
  tauto

/-- A covered pixel is set after the first draw exactly where it was clear before it. -/
theorem collides_after_draw {s t : State} {x y : Reg} {n : Nat}
    (hcov : ∀ px py, SpriteCovers t x y n px py ↔ SpriteCovers s x y n px py)
    (hpix : ∀ px py, Frame.pixel t.fb px py = true ↔
      Xor (Frame.pixel s.fb px py = true) (SpriteCovers s x y n px py)) :
    Collides t x y n ↔ ∃ px py, SpriteCovers s x y n px py ∧ Frame.pixel s.fb px py = false := by
  refine exists_congr fun px => exists_congr fun py => ?_
  rw [hcov, hpix, Xor, ← Bool.not_eq_true]
  tauto

/-- Settles O24: the second draw covers the same pixels, and flips each of them back. -/
theorem drawingTwiceRestores : Obligations.DrawingTwiceRestores := by
  intro s t x y n hfits hdraw hx hy
  obtain ⟨t', he, hpix, -, -, -, -, hframe⟩ := exec_drw_spec x y hfits
  obtain rfl := Host.Outcome.next.inj (he.symm.trans hdraw)
  have hi : t'.i = s.i := hframe .i (by decide)
  have hcov : ∀ px py, SpriteCovers t' x y n.toNat px py ↔ SpriteCovers s x y n.toNat px py :=
    fun _ _ => spriteCovers_congr (hframe .mem (by decide)) hi hx hy
  have hfits' : AccessFits t' n.toNat := by rwa [AccessFits, hi]
  obtain ⟨u, hu, hpix', hvf, -⟩ := exec_drw_spec x y hfits'
  have hvf : u.readV vf = 1 ↔
      ∃ px py, SpriteCovers s x y n.toNat px py ∧ Frame.pixel s.fb px py = false := by
    rw [← collides_after_draw hcov hpix]
    rcases hvf with ⟨hv, hc⟩ | ⟨hv, hc⟩
    · exact iff_of_true hv hc
    · exact iff_of_false (by rw [hv]; decide) hc
  refine ⟨u, hu, Frame.ext_pixel fun px py => ?_, hvf, fun hclear => ?_⟩
  · rw [Bool.eq_iff_iff, hpix', hpix, hcov]
    exact xor_xor_cancel_right_iff
  · rw [hvf, ← exists_spriteCovers_iff (x := x) (y := y)]
    exact exists_congr fun px => exists_congr fun py => and_iff_left_of_imp (hclear px py)

end Sys2Proof
end
